-- ==== Sys2Proof/Word.lean ====
section
/-!
DEFINITION. The three bit-vector types of CORE (spec/00_scope.md rules R5 and R6). All values are unsigned; `BitVec`'s
own `+`, `-` and `*` are the `+w`, `-w` and `*w` of rule R7.
-/
namespace Sys2Proof

/-- A word: a register, a stack slot or an immediate (R6). -/
abbrev Word := BitVec 64

/-- A byte of the input or the output port (R6). -/
abbrev Byte := BitVec 8

/-- An instruction word of program space (spec/30_encoding.md R45). -/
abbrev InstrWord := BitVec 80

end Sys2Proof
end

