-- ==== Sys2Proof/Syntax.lean ====
section
/-!
DEFINITION. The abstract instruction of spec/30_encoding.md rule R57: one constructor of `Instr` for each row of
spec/opcode_table.json. A register operand is one of the six registers by type, so no term is ill-formed.
-/
namespace Sys2Proof

/-- The six registers of rule R10, all of them legal in every register operand (R12, R47). -/
inductive Reg where
  | a
  | b
  | c
  | d
  | ip
  | sp
deriving DecidableEq, Repr

/-- The 22 instructions of rules R49 and R57. `l` is the left operand, and the destination where there is one. -/
inductive Instr where
  | pushI (imm : Word)
  | pushR (r : Reg)
  | pop (r : Reg)
  | add (l r : Reg)
  | sub (l r : Reg)
  | mul (l r : Reg)
  | div (l r : Reg)
  | xor (l r : Reg)
  | and (l r : Reg)
  | or (l r : Reg)
  | shl (l r : Reg)
  | shr (l r : Reg)
  | inp (r : Reg)
  | eq (l r : Reg)
  | gt (l r : Reg)
  | lt (l r : Reg)
  | jmp (addr : Word)
  | jmpRel (off : Word)
  | call (addr : Word)
  | ret
  | print (r : Reg)
  | halt
deriving DecidableEq, Repr

/-- The register operands an instruction names, in the order of rule R57. -/
def Instr.operands : Instr → List Reg
  | .pushI _ => []
  | .pushR r => [r]
  | .pop r => [r]
  | .add l r => [l, r]
  | .sub l r => [l, r]
  | .mul l r => [l, r]
  | .div l r => [l, r]
  | .xor l r => [l, r]
  | .and l r => [l, r]
  | .or l r => [l, r]
  | .shl l r => [l, r]
  | .shr l r => [l, r]
  | .inp r => [r]
  | .eq l r => [l, r]
  | .gt l r => [l, r]
  | .lt l r => [l, r]
  | .jmp _ => []
  | .jmpRel _ => []
  | .call _ => []
  | .ret => []
  | .print r => [r]
  | .halt => []

end Sys2Proof
end

