-- ==== Sys2Proof/Config.lean ====
section
/-!
DEFINITION. The parameters of spec/00_scope.md rule R5 that have a fixed value. (`N`, `Prog` and `In` are open and are
fields of State; the spec leaves no value open inside the machine, so there is no opaque constant here.)
-/
namespace Sys2Proof.Config

/-- `CAP`: the number of words in the operand stack (R5, R16). -/
abbrev cap : Nat := 255

/-- `CR`: the input byte that `Inp` discards (R5, R105). -/
abbrev cr : Byte := 0x0D

/-- `W`: the width of a word, and the first shift amount that faults (R5, R85). -/
abbrev wordBits : Nat := 64

/-- The greatest program length `N` the spec allows (R5). -/
abbrev maxProgram : Nat := 2 ^ 64 - 1

end Sys2Proof.Config
end

