-- ==== Sys2Proof/WellFormed.lean ====
section
/-!
DEFINITION. What a well-formed instruction word and a well-formed program are. The abstract instruction needs no check
(its types admit only the instructions of R57), so the checks stand on the 80-bit word: they are the rows of
spec/opcode_table.json (mask, match, register constraints; rule R49), written down apart from the decoder, so that the
two can be compared.
-/
namespace Sys2Proof

/-- One row of spec/opcode_table.json: a word is of the row when its masked bits match and the register fields the
format uses (`regL`: bits 71:68, `regR`: bits 67:64) hold a number at most 5 (R49, R55). -/
structure OpcodeRow where
  mnemonic : String
  mask : InstrWord
  pattern : InstrWord
  regL : Bool
  regR : Bool
deriving DecidableEq, Repr

/-- Format N (R46): every field but `op` must be zero. -/
def OpcodeRow.formN (m : String) (p : InstrWord) : OpcodeRow := ⟨m, 0xFFFFFFFFFFFFFFFFFFFF, p, false, false⟩

/-- Format I (R46): the fields `l` and `r` must be zero. -/
def OpcodeRow.formI (m : String) (p : InstrWord) : OpcodeRow := ⟨m, 0xFFFF0000000000000000, p, false, false⟩

/-- Format R (R46): the fields `r` and `imm` must be zero and `l` is a register. -/
def OpcodeRow.formR (m : String) (p : InstrWord) : OpcodeRow := ⟨m, 0xFF0FFFFFFFFFFFFFFFFF, p, true, false⟩

/-- Format RR (R46): the field `imm` must be zero and `l` and `r` are registers. -/
def OpcodeRow.formRR (m : String) (p : InstrWord) : OpcodeRow := ⟨m, 0xFF00FFFFFFFFFFFFFFFF, p, true, true⟩

/-- The 22 rows of spec/opcode_table.json, in its order (R49). -/
def opcodeTable : List OpcodeRow :=
  [.formI "PushI" 0x00000000000000000000, .formR "PushR" 0x01000000000000000000,
   .formR "Pop" 0x02000000000000000000, .formRR "Add" 0x03000000000000000000,
   .formRR "Sub" 0x04000000000000000000, .formRR "Mul" 0x05000000000000000000,
   .formRR "Div" 0x06000000000000000000, .formRR "Xor" 0x07000000000000000000,
   .formRR "And" 0x08000000000000000000, .formRR "Or" 0x09000000000000000000,
   .formRR "Shl" 0x0A000000000000000000] ++
  [.formRR "Shr" 0x0B000000000000000000, .formR "Inp" 0x0C000000000000000000,
   .formRR "Eq" 0x0D000000000000000000, .formRR "Gt" 0x0E000000000000000000,
   .formRR "Lt" 0x0F000000000000000000, .formI "Jmp" 0x10000000000000000000,
   .formI "JmpRel" 0x11000000000000000000, .formI "Call" 0x12000000000000000000,
   .formN "Ret" 0x13000000000000000000, .formR "Print" 0x14000000000000000000,
   .formN "Halt" 0x15000000000000000000]

/-- The masked bits of the row are as the row gives them (R52, R53). -/
def OpcodeRow.bitsMatch (row : OpcodeRow) (w : InstrWord) : Bool := w &&& row.mask == row.pattern

/-- The register fields of the row name registers (R55). -/
def OpcodeRow.registersNamed (row : OpcodeRow) (w : InstrWord) : Bool :=
  (!row.regL || (w >>> 68 &&& 0xF).toNat ≤ 5) && (!row.regR || (w >>> 64 &&& 0xF).toNat ≤ 5)

/-- The word is of this row. -/
def OpcodeRow.fits (row : OpcodeRow) (w : InstrWord) : Bool := row.bitsMatch w && row.registersNamed w

/-- A valid word: one that fits some row of the opcode table (R49, R54). -/
def wellFormedWord (w : InstrWord) : Bool := opcodeTable.any fun row => row.fits w

/-- A program the spec admits: `0 <= N <= 2^64 - 1` (R5). Its words need not be valid (R138). -/
def wellFormedProgram (prog : List InstrWord) : Bool := prog.length ≤ Config.maxProgram

end Sys2Proof
end

