-- ==== Sys2Proof/Decode.lean ====
section
/-!
DEFINITION. The decoder of spec/30_encoding.md rule R50, total on 80-bit words, and after it the encoder of rule R51.
The spec's `Invalid` carries no reason; the decoder's three reject names are the model's (log entry 9).
-/
namespace Sys2Proof

/-- Why a word is `Invalid` (log entry 9; the machine makes no difference between them). -/
inductive Reject where
  /-- Opcode 0x16 to 0xFF (R52). -/
  | reservedOpcode
  /-- A field the format does not use is not zero (R53). -/
  | unusedField
  /-- A register field holds 6 to 15 (R55). -/
  | noSuchRegister
deriving DecidableEq, Repr

/-- `op = w[79:72]` (R45). -/
def fieldOp (w : InstrWord) : BitVec 8 := w.extractLsb' 72 8

/-- `l = w[71:68]` (R45). -/
def fieldL (w : InstrWord) : BitVec 4 := w.extractLsb' 68 4

/-- `r = w[67:64]` (R45). -/
def fieldR (w : InstrWord) : BitVec 4 := w.extractLsb' 64 4

/-- `imm = w[63:0]`, used as it stands (R45, R48). -/
def fieldImm (w : InstrWord) : Word := w.extractLsb' 0 64

/-- The register a number names; 6 to 15 name none (R10, R47, R55). -/
def regOfNumber (n : BitVec 4) : Except Reject Reg :=
  match n.toNat with
  | 0 => .ok .a
  | 1 => .ok .b
  | 2 => .ok .c
  | 3 => .ok .d
  | 4 => .ok .ip
  | 5 => .ok .sp
  | _ => .error .noSuchRegister

/-- Format N (R46): no operand, every other field zero. -/
def decodeN (w : InstrWord) (i : Instr) : Except Reject Instr :=
  if fieldL w = 0 ∧ fieldR w = 0 ∧ fieldImm w = 0 then .ok i else .error .unusedField

/-- Format I (R46): the immediate. -/
def decodeI (w : InstrWord) (mk : Word → Instr) : Except Reject Instr :=
  if fieldL w = 0 ∧ fieldR w = 0 then .ok (mk (fieldImm w)) else .error .unusedField

/-- Format R (R46): one register, in the field `l`. -/
def decodeR (w : InstrWord) (mk : Reg → Instr) : Except Reject Instr :=
  if fieldR w = 0 ∧ fieldImm w = 0 then
    match regOfNumber (fieldL w) with
    | .ok r => .ok (mk r)
    | .error e => .error e
  else .error .unusedField

/-- Format RR (R46): two registers. -/
def decodeRR (w : InstrWord) (mk : Reg → Reg → Instr) : Except Reject Instr :=
  if fieldImm w = 0 then
    match regOfNumber (fieldL w), regOfNumber (fieldR w) with
    | .ok l, .ok r => .ok (mk l r)
    | .error e, _ => .error e
    | _, .error e => .error e
  else .error .unusedField

/-- The decoder (R50), by the opcode map of R49. -/
def decode (w : InstrWord) : Except Reject Instr :=
  match (fieldOp w).toNat with
  | 0x00 => decodeI w .pushI
  | 0x01 => decodeR w .pushR
  | 0x02 => decodeR w .pop
  | 0x03 => decodeRR w .add
  | 0x04 => decodeRR w .sub
  | 0x05 => decodeRR w .mul
  | 0x06 => decodeRR w .div
  | 0x07 => decodeRR w .xor
  | 0x08 => decodeRR w .and
  | 0x09 => decodeRR w .or
  | 0x0A => decodeRR w .shl
  | 0x0B => decodeRR w .shr
  | 0x0C => decodeR w .inp
  | 0x0D => decodeRR w .eq
  | 0x0E => decodeRR w .gt
  | 0x0F => decodeRR w .lt
  | 0x10 => decodeI w .jmp
  | 0x11 => decodeI w .jmpRel
  | 0x12 => decodeI w .call
  | 0x13 => decodeN w .ret
  | 0x14 => decodeR w .print
  | 0x15 => decodeN w .halt
  | _ => .error .reservedOpcode

/-- The word with the low `nbits` bits of `w` and zeros above them, as one instruction word: program space holds whole
words, so the table's bit numbers are the word's (R35, log entry 8). -/
def tableWord (nbits w : Nat) : InstrWord := BitVec.ofNat 80 (w % 2 ^ nbits)

/-- The instruction the decoder reads from the table word `w` of `nbits` bits. -/
def decodeTableWord (nbits w : Nat) : Option Instr :=
  match decode (tableWord nbits w) with
  | .ok i => some i
  | .error _ => none

/-! ### The encoder -/

/-- The number of a register (R10, R47). -/
def regNumber : Reg → BitVec 4
  | .a => 0
  | .b => 1
  | .c => 2
  | .d => 3
  | .ip => 4
  | .sp => 5

/-- The word with the four fields of R45. -/
def packWord (op : BitVec 8) (l r : BitVec 4) (imm : Word) : InstrWord := op ++ l ++ r ++ imm

/-- The word of an instruction: its opcode, its operands in the fields its format uses, and zero in every other bit
(R51). -/
def encode : Instr → InstrWord
  | .pushI imm => packWord 0x00 0 0 imm
  | .pushR r => packWord 0x01 (regNumber r) 0 0
  | .pop r => packWord 0x02 (regNumber r) 0 0
  | .add l r => packWord 0x03 (regNumber l) (regNumber r) 0
  | .sub l r => packWord 0x04 (regNumber l) (regNumber r) 0
  | .mul l r => packWord 0x05 (regNumber l) (regNumber r) 0
  | .div l r => packWord 0x06 (regNumber l) (regNumber r) 0
  | .xor l r => packWord 0x07 (regNumber l) (regNumber r) 0
  | .and l r => packWord 0x08 (regNumber l) (regNumber r) 0
  | .or l r => packWord 0x09 (regNumber l) (regNumber r) 0
  | .shl l r => packWord 0x0A (regNumber l) (regNumber r) 0
  | .shr l r => packWord 0x0B (regNumber l) (regNumber r) 0
  | .inp r => packWord 0x0C (regNumber r) 0 0
  | .eq l r => packWord 0x0D (regNumber l) (regNumber r) 0
  | .gt l r => packWord 0x0E (regNumber l) (regNumber r) 0
  | .lt l r => packWord 0x0F (regNumber l) (regNumber r) 0
  | .jmp addr => packWord 0x10 0 0 addr
  | .jmpRel off => packWord 0x11 0 0 off
  | .call addr => packWord 0x12 0 0 addr
  | .ret => packWord 0x13 0 0 0
  | .print r => packWord 0x14 (regNumber r) 0 0
  | .halt => packWord 0x15 0 0 0

end Sys2Proof
end

