-- ==== Sys2Proof/Machine/State.lean ====
section
/-!
DEFINITION. The state of CORE (spec/10_state.md), the reasons a step could stop, and reset. State is plain data. The
program, the input stream and the output log are environment in the spec (R18, R24, R25); they stand in State because a
step reads and writes them (log entries 1 and 4).
-/
namespace Sys2Proof.Machine

/-- The stack storage (R16): entries (slot, word) in one canonical form, slots strictly rising and no entry zero, since
an unlisted slot reads as the reset value 0 (R27, log entry 7). -/
abbrev Memory := List (Nat × Word)

/-- The canonical form of the stack storage, and that it lists no slot outside `0 .. 254` (R31). -/
abbrev Memory.wf (m : Memory) : Prop :=
  m.Pairwise (fun x y => x.1 < y.1) ∧ ∀ c ∈ m, c.2 ≠ 0 ∧ c.1 < Config.cap

/-- The state of CORE and of its environment. -/
structure State where
  /-- `x[A]` (R11). -/
  a : Word
  /-- `x[B]` (R11). -/
  b : Word
  /-- `x[C]` (R11). -/
  c : Word
  /-- `x[D]` (R11). -/
  d : Word
  /-- `x[IP]`, the instruction pointer, counting instructions (R14). -/
  ip : Word
  /-- `x[SP]`, the number of words on the stack and the next free slot (R15). -/
  sp : Word
  /-- `Stack[0 .. 254]` (R16). -/
  stack : Memory
  /-- The halt flag (R19). -/
  halt : Bool
  /-- Set by the host's `run` (R20). -/
  started : Bool
  /-- The code of the fault raised, 0 for none (R20). -/
  fault : BitVec 3
  /-- `Prog` with `N` its length (R18). -/
  prog : List InstrWord
  /-- `In`: the bytes the channel has still to deliver, first byte first (R24). -/
  input : List Byte
  /-- Whether the channel may deliver more bytes after those of `input`, so that on running out of them it has not
  answered yet; when false it then answers `Exhausted` (R24, log entry 4). -/
  inputOpen : Bool
  /-- `Out`: the bytes written so far, first byte first (R25). -/
  output : List Byte
deriving DecidableEq, Repr

/-- The four phases of the run loop (R21). -/
inductive Phase where
  | ready
  | running
  | halted
  | faulted
deriving DecidableEq, Repr

/-- The five kinds of fault of CORE (R115 to R120). A fault of CORE is a NEXT state of the model, with its code in the
field `fault`; it is no `Machine.Fault`. -/
inductive FaultKind where
  /-- The fetch, when `IP >= N` (R116). -/
  | invalidAddress
  /-- A push with `SP >= 255`, a pop with `SP = 0` or `SP > 255` (R117). -/
  | stackFault
  /-- `Div` by zero, `Shl` and `Shr` by 64 or more (R118). -/
  | arithmeticFault
  /-- `Inp`, when the channel answers `Exhausted` (R119). -/
  | inputExhausted
  /-- The decoder, on a word that is no instruction (R120). -/
  | illegalInstruction
deriving DecidableEq, Repr

/-- The reasons a step of the MODEL has no successor. A fault of CORE is no such reason: the spec describes what raising it
does (it writes the field `fault`, R115), so it is a NEXT state. -/
inductive Fault where
  /-- The machine is stuck inside an `Inp`: the channel has not answered its read (R24, R107, R150). Raised by `execInp`;
  safe. A step is one whole instruction (R9), so there is no state between; the machine is still in the state before the
  step, and the step exists once the channel has answered (log entry 5). `consumed` counts the bytes that the `Inp` has
  read and discarded so far (R111). -/
  | inputNotAnswered (consumed : Nat)
deriving DecidableEq, Repr

/-- The reasons the MODEL gives an instruction no meaning. -/
inductive Refusal where
  /-- An arm of `exec` that has no meaning yet; safe. No arm answers with it: every instruction has its meaning. -/
  | notModelled (mnemonic : String)
deriving DecidableEq, Repr

/-- The state after reset with a program, for a channel that has still to deliver `bytes` and then more (`more` true) or
the end of its stream (R27, R135). -/
def State.resetWith (prog : List InstrWord) (bytes : List Byte) (more : Bool) : State where
  a := 0
  b := 0
  c := 0
  d := 0
  ip := 0
  sp := 0
  stack := []
  halt := false
  started := false
  fault := 0
  prog := prog
  input := bytes
  inputOpen := more
  output := []

/-- The machine right after reset (R27) with nothing supplied from outside: the empty program, which the spec allows
(R18, R138), and an input stream that has ended (log entry 6). -/
def State.reset : State := State.resetWith [] [] false

end Sys2Proof.Machine
end

