-- ==== Sys2Proof/Machine/Flags.lean ====
section
/-!
DEFINITION. The control fields of CORE. There are no condition flags (spec/10_state.md R22): a comparison decides only
the skip of its own step (spec/43_compare.md R90), by one of the three relations below. What remains are `halt`,
`started`, `fault` and the phase they determine (R19 to R21).
-/
namespace Sys2Proof.Machine

/-- The code of a fault kind (R20, R115). -/
def FaultKind.code : FaultKind → BitVec 3
  | .invalidAddress => 1
  | .stackFault => 2
  | .arithmeticFault => 3
  | .inputExhausted => 4
  | .illegalInstruction => 5

/-- The phase, evaluated in the order of R21. -/
def State.phase (s : State) : Phase :=
  if s.fault ≠ 0 then .faulted
  else if s.halt then .halted
  else if s.started then .running
  else .ready

/-- The relation of `Eq` (R91). -/
def relEq (x y : Word) : Bool := x == y

/-- The relation of `Gt`, unsigned (R92). -/
def relGt (x y : Word) : Bool := y.ult x

/-- The relation of `Lt`, unsigned (R93). -/
def relLt (x y : Word) : Bool := x.ult y

end Sys2Proof.Machine
end

