-- ==== Sys2Proof/Machine/Operands.lean ====
section
/-!
DEFINITION. The one operand form that reaches state, the register operand (spec/10_state.md R12), and the two widenings
between a byte and a word (spec/20_memory.md R35). An immediate is used as it stands (R48) and needs no operation.
-/
namespace Sys2Proof.Machine

/-- `x[r]`, the document's `get(r)` (R12). -/
def State.getReg (s : State) : Reg → Word
  | .a => s.a
  | .b => s.b
  | .c => s.c
  | .d => s.d
  | .ip => s.ip
  | .sp => s.sp

/-- `x[r] <- v`, the document's `set(r, v)`: `v` is stored unchanged and unchecked (R12). -/
def State.setReg (s : State) (r : Reg) (v : Word) : State :=
  match r with
  | .a => { s with a := v }
  | .b => { s with b := v }
  | .c => { s with c := v }
  | .d => { s with d := v }
  | .ip => { s with ip := v }
  | .sp => { s with sp := v }

/-- `zext_64(b)`: the word with the numeric value of the byte (R8). -/
def zext64 (b : Byte) : Word := b.setWidth 64

/-- `v[7:0]` (R109). -/
def lowByte (v : Word) : Byte := v.extractLsb' 0 8

end Sys2Proof.Machine
end

