-- ==== Sys2Proof/Machine/Ops.lean ====
section
/-!
DEFINITION. The named operations every instruction is written over: the stack storage, push and pop, raising a fault,
the end of a step, fetch and decode, and the two ports. There is no return from a fault: no instruction does it and only
reset leaves the phase Faulted (spec/60_exceptions.md R127).
-/
namespace Sys2Proof.Machine

/-! ### Stack storage (20_memory.md R31) -/

/-- `StackRead(i)` (R31): the word of slot `i`; a slot not listed reads as its reset value 0 (R27). -/
def Memory.read : Memory → Nat → Word
  | [], _ => 0
  | c :: m, i => if c.1 = i then c.2 else Memory.read m i

/-- The storage without an entry for slot `i`. -/
def Memory.erase : Memory → Nat → Memory
  | [], _ => []
  | c :: m, i => if c.1 = i then Memory.erase m i else c :: Memory.erase m i

/-- The storage with the entry (i, v) before the first entry of a greater slot. -/
def Memory.insert : Memory → Nat → Word → Memory
  | [], i, v => [(i, v)]
  | c :: m, i, v => if i < c.1 then (i, v) :: c :: m else c :: Memory.insert m i v

/-- `StackWrite(i, v)` (R31): slot `i` becomes `v` and no other slot changes. Writing the word an unlisted slot reads as
removes the entry, which keeps the canonical form. -/
def Memory.write (m : Memory) (i : Nat) (v : Word) : Memory :=
  if v = 0 then m.erase i else (m.erase i).insert i v

/-! ### Push and pop (41_stack.md R70, R71) -/

/-- `push(v)` (R70): the check first, on the whole 64-bit SP, then the slot, then SP. -/
def push (v : Word) (s : State) : Except FaultKind State :=
  if Config.cap ≤ s.sp.toNat then .error .stackFault
  else .ok { s with stack := s.stack.write s.sp.toNat v, sp := s.sp + 1 }

/-- `pop()` (R71): the check first, then SP, then the read at the new SP. No slot changes (R17). -/
def pop (s : State) : Except FaultKind (Word × State) :=
  if s.sp = 0 ∨ Config.cap < s.sp.toNat then .error .stackFault
  else .ok (s.stack.read (s.sp - 1).toNat, { s with sp := s.sp - 1 })

/-! ### Raising a fault, and the end of a step (40_run_loop.md R60) -/

/-- Raising a fault (R115): its code is written to `fault` and nothing else changes; nothing is saved and control goes
nowhere (R126). -/
def raise (k : FaultKind) (s : State) : State := { s with fault := k.code }

/-- The increment that ends a step: 1, and 1 more for a skip, on the value IP has now, modulo 2^64 (R63, R64). -/
def increment (skip : Bool) (s : State) : State := { s with ip := s.ip + 1 + (if skip then 1 else 0) }

/-- The end of a step that started in `s` (R60): an instruction that is done gets the uniform increment, one that raised
a fault leaves `s` with the fault's code. -/
def conclude (s : State) : Except FaultKind State → Host.Outcome State Fault Refusal
  | .ok t => .next (increment false t)
  | .error k => .next (raise k s)

/-- The end of a comparison (R64, R90): the extra increment when the relation does not hold. -/
def skipUnless (holds : Bool) (s : State) : Host.Outcome State Fault Refusal := .next (increment (!holds) s)

/-- A control instruction's write of IP for the target `t`: `t -w 1`, which the increment brings to `t` (R63). -/
def aimAt (t : Word) (s : State) : State := { s with ip := t - 1 }

/-- What the model answers where CORE takes no step, in any phase but Running: the same state (R60, log entry 3). -/
def noStep (s : State) : Host.Outcome State Fault Refusal := .next s

/-! ### Fetch and decode (R61, R62) -/

/-- The fetch (R61): the word at IP, or `InvalidAddress` when `IP >= N`, compared as whole unsigned numbers. -/
def fetch (s : State) : Except FaultKind InstrWord :=
  match s.prog[s.ip.toNat]? with
  | some w => .ok w
  | none => .error .invalidAddress

/-- Fetch, then decode (R61, R62, R123). -/
def fetchInstr (s : State) : Except FaultKind Instr :=
  match fetch s with
  | .error k => .error k
  | .ok w =>
    match decode w with
    | .ok i => .ok i
    | .error _ => .error .illegalInstruction

/-- The program with the word `w` at address `at_`, zero words before it where the program was shorter (log entry 2). -/
def placeWord (prog : List InstrWord) (at_ : Nat) (w : InstrWord) : List InstrWord :=
  prog.take at_ ++ List.replicate (at_ - prog.length) 0 ++ w :: prog.drop (at_ + 1)

/-- The state with `w` placed at IP and the machine in phase Running, so that the next step fetches `w` (log entry 2). -/
def placeAtIp (w : InstrWord) (s : State) : State :=
  { s with prog := placeWord s.prog s.ip.toNat w, started := true, halt := false, fault := 0 }

/-! ### The ports (10_state.md R24, R25) -/

/-- The channel's answer to one read transaction (R24); `noAnswer` is the channel that has not answered yet (log entry
4). -/
inductive PortAnswer where
  | byte (b : Byte) (left : List Byte)
  | exhausted
  | noAnswer
deriving DecidableEq, Repr

/-- `InRead()` (R24): the first byte still to be delivered, which is removed. -/
def inRead (more : Bool) : List Byte → PortAnswer
  | b :: left => .byte b left
  | [] => if more then .noAnswer else .exhausted

/-- The read transactions of one `Inp` (R105, R106): carriage returns are discarded and the read retried. The answer
`byte b left` is the byte kept. -/
def inpSequence (more : Bool) : List Byte → PortAnswer
  | [] => inRead more []
  | b :: left => if b = Config.cr then inpSequence more left else .byte b left

/-- `OutWrite(b)` (R25): the byte is appended to the output log. -/
def outWrite (b : Byte) (s : State) : State := { s with output := s.output ++ [b] }

end Sys2Proof.Machine
end

