-- ==== Sys2Proof/Machine/Alu.lean ====
section
/-!
DEFINITION. The nine arithmetic and bitwise instructions (spec/42_alu.md): the value of each (rule R87's table), the
common shape (R77), and one meaning each.
-/
namespace Sys2Proof.Machine

/-- The value of `Add`, modulo 2^64 (R78). -/
def aluAdd (x y : Word) : Except FaultKind Word := .ok (x + y)

/-- The value of `Sub`, left minus right modulo 2^64 (R79). -/
def aluSub (x y : Word) : Except FaultKind Word := .ok (x - y)

/-- The value of `Mul`, the low 64 bits of the product (R80). -/
def aluMul (x y : Word) : Except FaultKind Word := .ok (x * y)

/-- The value of `Div`, the unsigned quotient; a zero divisor faults (R81). -/
def aluDiv (x y : Word) : Except FaultKind Word := if y = 0 then .error .arithmeticFault else .ok (x / y)

/-- The value of `Xor` (R82). -/
def aluXor (x y : Word) : Except FaultKind Word := .ok (x ^^^ y)

/-- The value of `And` (R83). -/
def aluAnd (x y : Word) : Except FaultKind Word := .ok (x &&& y)

/-- The value of `Or` (R84). -/
def aluOr (x y : Word) : Except FaultKind Word := .ok (x ||| y)

/-- The value of `Shl`: the amount is the whole word, not masked, and 64 or more faults (R85). -/
def aluShl (x n : Word) : Except FaultKind Word :=
  if Config.wordBits ≤ n.toNat then .error .arithmeticFault else .ok (x <<< n.toNat)

/-- The value of `Shr`, a logical shift; 64 or more faults (R86). -/
def aluShr (x n : Word) : Except FaultKind Word :=
  if Config.wordBits ≤ n.toNat then .error .arithmeticFault else .ok (x >>> n.toNat)

/-- The common shape (R77): both operands are read first, then the fault condition, then one write, to the left
register only. -/
def binary (f : Word → Word → Except FaultKind Word) (l r : Reg) (s : State) : Host.Outcome State Fault Refusal :=
  conclude s ((f (s.getReg l) (s.getReg r)).map fun v => s.setReg l v)

/-- `Add(l, r)` (R78). -/
def execAdd (l r : Reg) (s : State) : Host.Outcome State Fault Refusal := binary aluAdd l r s

/-- `Sub(l, r)` (R79). -/
def execSub (l r : Reg) (s : State) : Host.Outcome State Fault Refusal := binary aluSub l r s

/-- `Mul(l, r)` (R80). -/
def execMul (l r : Reg) (s : State) : Host.Outcome State Fault Refusal := binary aluMul l r s

/-- `Div(l, r)` (R81). -/
def execDiv (l r : Reg) (s : State) : Host.Outcome State Fault Refusal := binary aluDiv l r s

/-- `Xor(l, r)` (R82). -/
def execXor (l r : Reg) (s : State) : Host.Outcome State Fault Refusal := binary aluXor l r s

/-- `And(l, r)` (R83). -/
def execAnd (l r : Reg) (s : State) : Host.Outcome State Fault Refusal := binary aluAnd l r s

/-- `Or(l, r)` (R84). -/
def execOr (l r : Reg) (s : State) : Host.Outcome State Fault Refusal := binary aluOr l r s

/-- `Shl(l, r)` (R85). -/
def execShl (l r : Reg) (s : State) : Host.Outcome State Fault Refusal := binary aluShl l r s

/-- `Shr(l, r)` (R86). -/
def execShr (l r : Reg) (s : State) : Host.Outcome State Fault Refusal := binary aluShr l r s

end Sys2Proof.Machine
end

