-- ==== Sys2Proof/Machine/Compare.lean ====
section
/-!
DEFINITION. The skip-if-false comparisons `Eq`, `Gt` and `Lt` (spec/43_compare.md R90).
-/
namespace Sys2Proof.Machine

/-- `Eq(l, r)` (R91). -/
def execEq (l r : Reg) (s : State) : Host.Outcome State Fault Refusal :=
  skipUnless (relEq (s.getReg l) (s.getReg r)) s

/-- `Gt(l, r)` (R92). -/
def execGt (l r : Reg) (s : State) : Host.Outcome State Fault Refusal :=
  skipUnless (relGt (s.getReg l) (s.getReg r)) s

/-- `Lt(l, r)` (R93). -/
def execLt (l r : Reg) (s : State) : Host.Outcome State Fault Refusal :=
  skipUnless (relLt (s.getReg l) (s.getReg r)) s

end Sys2Proof.Machine
end

