-- ==== Sys2Proof/Machine/Control.lean ====
section
/-!
DEFINITION. The control transfers `Jmp`, `JmpRel`, `Call`, `Ret` and `Halt` (spec/44_control.md). None checks its
target; the next fetch does (R102).
-/
namespace Sys2Proof.Machine

/-- `Jmp(addr)` (R95). -/
def execJmp (addr : Word) (s : State) : Host.Outcome State Fault Refusal := conclude s (.ok (aimAt addr s))

/-- `JmpRel(off)` (R96): the base is the address of the `JmpRel` itself. -/
def execJmpRel (off : Word) (s : State) : Host.Outcome State Fault Refusal := conclude s (.ok (aimAt (s.ip + off) s))

/-- `Call(addr)` (R97): the push, and so its check, comes before the jump. -/
def execCall (addr : Word) (s : State) : Host.Outcome State Fault Refusal :=
  conclude s ((push (s.ip + 1) s).map fun t => aimAt addr t)

/-- `Ret` (R98). -/
def execRet (s : State) : Host.Outcome State Fault Refusal :=
  conclude s ((pop s).map fun p => aimAt p.1 p.2)

/-- `Halt` (R99): `halt` is set and IP keeps the address of the `Halt` (R65). -/
def execHalt (s : State) : Host.Outcome State Fault Refusal := .next { s with halt := true }

end Sys2Proof.Machine
end

