-- ==== Sys2Proof/Machine/Io.lean ====
section
/-!
DEFINITION. `Inp` and `Print` (spec/45_io.md).
-/
namespace Sys2Proof.Machine

/-- `Inp(r)` (R105). On `Exhausted` the machine is unchanged but for the fault's code, and the bytes consumed stay
consumed (R108). While the channel has not answered the instruction is not done (R107), and since a step is one whole
instruction (R9) there is no next state: the step is stuck, having consumed every byte delivered so far, all of them
carriage returns (log entry 5). -/
def execInp (r : Reg) (s : State) : Host.Outcome State Fault Refusal :=
  match inpSequence s.inputOpen s.input with
  | .byte b left => conclude s (.ok (State.setReg { s with input := left } r (zext64 b)))
  | .exhausted => .next (raise .inputExhausted { s with input := [] })
  | .noAnswer => .fault (.inputNotAnswered s.input.length)

/-- `Print(r)` (R109). -/
def execPrint (r : Reg) (s : State) : Host.Outcome State Fault Refusal :=
  conclude s (.ok (outWrite (lowByte (s.getReg r)) s))

end Sys2Proof.Machine
end

