-- ==== Sys2Proof/Machine/Stack.lean ====
section
/-!
DEFINITION. The stack instructions `PushI`, `PushR` and `Pop` (spec/41_stack.md).
-/
namespace Sys2Proof.Machine

/-- `PushI(imm)` (R72). -/
def execPushI (imm : Word) (s : State) : Host.Outcome State Fault Refusal := conclude s (push imm s)

/-- `PushR(r)` (R73): the operand is read before the push, so `PushR(SP)` pushes the old SP. -/
def execPushR (r : Reg) (s : State) : Host.Outcome State Fault Refusal := conclude s (push (s.getReg r) s)

/-- `Pop(r)` (R74): the destination is written last, so `Pop(SP)` leaves the popped word in SP. -/
def execPop (r : Reg) (s : State) : Host.Outcome State Fault Refusal :=
  conclude s ((pop s).map fun p => p.2.setReg r p.1)

end Sys2Proof.Machine
end

