-- ==== Sys2Proof/Machine/Dispatch.lean ====
section
/-!
DEFINITION. The dispatch of spec/40_run_loop.md R62: one meaning per instruction.
-/
namespace Sys2Proof.Machine

/-- The rule of the instruction, and the end of its step (R60, R62). -/
def exec (i : Instr) (s : State) : Host.Outcome State Fault Refusal :=
  match i with
  -- 41_stack.md
  | .pushI imm => Sys2Proof.Machine.execPushI imm s
  | .pushR r => Sys2Proof.Machine.execPushR r s
  | .pop r => Sys2Proof.Machine.execPop r s
  -- 42_alu.md
  | .add l r => Sys2Proof.Machine.execAdd l r s
  | .sub l r => Sys2Proof.Machine.execSub l r s
  | .mul l r => Sys2Proof.Machine.execMul l r s
  | .div l r => Sys2Proof.Machine.execDiv l r s
  | .xor l r => Sys2Proof.Machine.execXor l r s
  | .and l r => Sys2Proof.Machine.execAnd l r s
  | .or l r => Sys2Proof.Machine.execOr l r s
  | .shl l r => Sys2Proof.Machine.execShl l r s
  | .shr l r => Sys2Proof.Machine.execShr l r s
  -- 45_io.md
  | .inp r => Sys2Proof.Machine.execInp r s
  -- 43_compare.md
  | .eq l r => Sys2Proof.Machine.execEq l r s
  | .gt l r => Sys2Proof.Machine.execGt l r s
  | .lt l r => Sys2Proof.Machine.execLt l r s
  -- 44_control.md
  | .jmp addr => Sys2Proof.Machine.execJmp addr s
  | .jmpRel off => Sys2Proof.Machine.execJmpRel off s
  | .call addr => Sys2Proof.Machine.execCall addr s
  | .ret => Sys2Proof.Machine.execRet s
  -- 45_io.md
  | .print r => Sys2Proof.Machine.execPrint r s
  -- 44_control.md
  | .halt => Sys2Proof.Machine.execHalt s

end Sys2Proof.Machine
end

