-- ==== Sys2Proof/Machine/Step.lean ====
section
/-!
DEFINITION. The step of spec/40_run_loop.md R60, and the placing of one word where the next step fetches.
-/
namespace Sys2Proof.Machine

/-- One step (R60): in phase Running, fetch, decode and execute; a fault of fetch or decode is raised with no other
change (R61, R62). In any other phase CORE takes no step (log entry 3). -/
def step (s : State) : Host.Outcome State Fault Refusal :=
  match s.phase with
  | .running =>
    match fetchInstr s with
    | .ok i => exec i s
    | .error k => .next (raise k s)
  | .ready => noStep s
  | .halted => noStep s
  | .faulted => noStep s

/-- The state with the table word `w` of `nbits` bits placed at IP and the phase Running (log entry 2). -/
def State.withFetchWord (s : State) (nbits w : Nat) : State := placeAtIp (tableWord nbits w) s

end Sys2Proof.Machine
end

