-- ==== Sys2Proof/Machine/HostPort.lean ====
section
/-!
DEFINITION. What the outside world can do to CORE (spec/10_state.md R26; spec/70_reset_and_hazards.md R135 to R141): the
host's reset, run, observation and single step, and the channel's side of the input port. None of these is a step of
CORE but the single step. In phase Running the host may only serve the channel (R141), and step where it has the single step: it can
neither reset nor observe, and its `run` has no effect.
-/
namespace Sys2Proof.Machine

/-- The host's `reset` with a program (R26 (1), R135): every field of CORE at its reset value, whatever it was. The
channel is not reset (R136): what it has still to deliver is its own affair, and the output log starts empty (R27). The
host has no move between `run` and the terminal phase (R141), and R26 (1) names no phase: that there is therefore no reset
in phase Running is the model's choice (log entry 11). -/
def hostReset (prog : List InstrWord) (s : State) : Option State :=
  match s.phase with
  | .running => none
  | .ready | .halted | .faulted => some (State.resetWith prog s.input s.inputOpen)

/-- The host's `run` (R26 (2)): in Ready it sets `started`, in any other phase it has no effect. -/
def hostRun (s : State) : State :=
  match s.phase with
  | .ready => { s with started := true }
  | .running => s
  | .halted => s
  | .faulted => s

/-- The host's single step, where it is present: exactly one step (R26, R134). -/
def hostStep (s : State) : Host.Outcome State Fault Refusal := step s

/-- What the host can read (R26 (3)): the flags, the phase, every register and every stack slot. -/
structure Observation where
  halt : Bool
  fault : BitVec 3
  phase : Phase
  a : Word
  b : Word
  c : Word
  d : Word
  ip : Word
  sp : Word
  slots : List Word
deriving DecidableEq, Repr

/-- The host's observation (R26 (3)). In the middle of a run a read is given no meaning, so there is none in phase
Running (log entry 10). -/
def hostObserve (s : State) : Option Observation :=
  match s.phase with
  | .running => none
  | .ready | .halted | .faulted =>
    some ⟨s.halt, s.fault, s.phase, s.a, s.b, s.c, s.d, s.ip, s.sp, (List.range Config.cap).map fun i => s.stack.read i⟩

/-- The channel gets more bytes to deliver, after those it has (R24, R141); a stream that has ended stays as it is (log
entry 4). -/
def channelDeliver (bytes : List Byte) (s : State) : State :=
  if s.inputOpen then { s with input := s.input ++ bytes } else s

/-- The channel's stream ends after the bytes it has (R24, log entry 4). -/
def channelEnd (s : State) : State := { s with inputOpen := false }

end Sys2Proof.Machine
end

