-- ==== Sys2Proof/Safety.lean ====
section
/-!
DEFINITION. What counts as a safe run, the invariant of the machine, and the words the statements use for what an
instruction leaves unchanged. `s` is the state before and `t` the state after throughout.
-/
namespace Sys2Proof.Machine

/-- A safe state: no fault has been raised (R21). -/
def State.Safe (s : State) : Prop := s.phase ≠ .faulted

/-- A run is safe for `k` steps when it reaches a state and that state is safe. (A fault is terminal, so no earlier state
was faulted either.) -/
def safeFor (k : Nat) (s : State) : Prop := ∃ t, Sys2Proof.core.run k s = .next t ∧ t.Safe

/-- The invariant of the machine: what the spec says of the fields together, in every state a run from reset reaches. -/
structure Inv (s : State) : Prop where
  /-- The stack storage is canonical and lists no slot outside `0 .. 254` (R31, log entry 7). -/
  stackWf : Memory.wf s.stack
  /-- `fault` holds one of the codes 0 to 5; 6 and 7 are never written (R20). -/
  faultCode : s.fault.toNat ≤ 5
  /-- `halt = 1` and `fault != 0` never hold together (R21). -/
  haltNotFaulted : s.halt = true → s.fault = 0
  /-- Only a machine that was started is halted or faulted (R68). -/
  endedWasStarted : s.halt = true ∨ s.fault ≠ 0 → s.started = true
  /-- `N` is at most 2^64 - 1 (R5). -/
  programFits : wellFormedProgram s.prog = true

/-- Every register outside `ex` is unchanged. -/
def RegsKept (ex : List Reg) (s t : State) : Prop := ∀ q, q ∉ ex → t.getReg q = s.getReg q

/-- Every stack slot is unchanged. -/
def StackKept (s t : State) : Prop := ∀ i, t.stack.read i = s.stack.read i

/-- Slot `i` holds `v` and every other stack slot is unchanged. -/
def StackStored (i : Nat) (v : Word) (s t : State) : Prop :=
  t.stack.read i = v ∧ ∀ j, j ≠ i → t.stack.read j = s.stack.read j

/-- `halt`, `started` and `fault` are unchanged. -/
def ControlKept (s t : State) : Prop := t.halt = s.halt ∧ t.started = s.started ∧ t.fault = s.fault

/-- The program, the input stream and the output log are unchanged. -/
def EnvKept (s t : State) : Prop :=
  t.prog = s.prog ∧ t.input = s.input ∧ t.inputOpen = s.inputOpen ∧ t.output = s.output

/-- The fault of this code was raised and nothing else changed (R66, R115): every register, IP among them, every stack
slot, `halt`, `started` and the environment are as before. -/
def FaultTaken (code : BitVec 3) (s t : State) : Prop :=
  t.fault = code ∧ RegsKept [] s t ∧ StackKept s t ∧ t.halt = s.halt ∧ t.started = s.started ∧ EnvKept s t

/-- The word `v` is the one result, in register `r`, and IP moved on: to IP + 1, or to `v + 1` when `r` is IP (R63,
R100). Every other register, the stack, the control fields and the environment are unchanged. -/
structure RegisterResult (r : Reg) (v : Word) (s t : State) : Prop where
  result : r ≠ .ip → t.getReg r = v
  nextIp : t.ip = (if r = .ip then v else s.ip) + 1
  regs : RegsKept [r, .ip] s t
  stack : StackKept s t
  control : ControlKept s t
  env : EnvKept s t

/-- Only IP changed, to `next`. -/
structure OnlyIp (next : Word) (s t : State) : Prop where
  nextIp : t.ip = next
  regs : RegsKept [.ip] s t
  stack : StackKept s t
  control : ControlKept s t
  env : EnvKept s t

/-- The word `v` was pushed at the old SP, SP grew by 1 and IP is `next`; nothing else changed (R70). -/
structure PushResult (v next : Word) (s t : State) : Prop where
  stored : StackStored s.sp.toNat v s t
  newSp : t.sp = s.sp + 1
  nextIp : t.ip = next
  regs : RegsKept [.sp, .ip] s t
  control : ControlKept s t
  env : EnvKept s t

/-- The code of the only fault each instruction can raise in its execution, if it can raise one (R123, codes of R20). -/
def faultCodeOf : Instr → Option (BitVec 3)
  | .pushI _ => some 2
  | .pushR _ => some 2
  | .pop _ => some 2
  | .add _ _ => none
  | .sub _ _ => none
  | .mul _ _ => none
  | .div _ _ => some 3
  | .xor _ _ => none
  | .and _ _ => none
  | .or _ _ => none
  | .shl _ _ => some 3
  | .shr _ _ => some 3
  | .inp _ => some 4
  | .eq _ _ => none
  | .gt _ _ => none
  | .lt _ _ => none
  | .jmp _ => none
  | .jmpRel _ => none
  | .call _ => some 2
  | .ret => some 2
  | .print _ => none
  | .halt => none

/-- The fault raised by the step from `s` to `t` has the code of its cause: an address that is none, a word of no row of
the opcode table, or the decoded instruction. Only an `Inp` changes the input stream, which it has then consumed (R108). -/
def FaultOfCause (s t : State) : Prop :=
  (s.prog.length ≤ s.ip.toNat ∧ t.fault = 1 ∧ t.input = s.input) ∨
    ∃ w, s.prog[s.ip.toNat]? = some w ∧
      ((wellFormedWord w = false ∧ t.fault = 5 ∧ t.input = s.input) ∨
        ∃ i, decode w = .ok i ∧ faultCodeOf i = some t.fault ∧ ((∃ r, i = .inp r) → t.input = []) ∧
          ((∀ r, i ≠ .inp r) → t.input = s.input))

/-- The machine is inside an `Inp` whose channel has not answered: it has delivered nothing but carriage returns and its
stream has not ended (R107, log entry 4). -/
def AwaitsInput (s : State) : Prop :=
  s.phase = .running ∧ s.inputOpen = true ∧ (∀ b ∈ s.input, b = 0x0D) ∧
    ∃ w r, s.prog[s.ip.toNat]? = some w ∧ decode w = .ok (.inp r)

/-- The word a pop in state `s` returns (R71). -/
def topWord (s : State) : Word := s.stack.read (s.sp.toNat - 1)

/-- A target that is no address of the program is found by the next fetch, not by the instruction that went there
(R102): the step after raises `InvalidAddress` (code 1) and changes nothing else. -/
def BadTargetFoundAtFetch (s t : State) : Prop :=
  s.phase = .running → s.prog.length ≤ t.ip.toNat → ∃ u, step t = .next u ∧ FaultTaken 1 t u

/-- An outcome with its next state changed by `f`. -/
def mapNext (f : State → State) : Host.Outcome State Fault Refusal → Host.Outcome State Fault Refusal
  | .next t => .next (f t)
  | .fault r => .fault r
  | .refused r => .refused r

end Sys2Proof.Machine
end

