-- ==== Sys2Proof/Certificates/Slice0/Obligations.lean ====
section
/-!
DEFINITION. The statements for the provers. The words for what an instruction leaves unchanged (`RegisterResult`,
`OnlyIp`, `PushResult`, `FaultTaken` and the rest) are in Sys2Proof/Safety.lean. Results are stated over the natural
numbers the words stand for, apart from the model's own operations. Fault codes are the numbers of rule R20.
-/

open Sys2Proof Sys2Proof.Machine

/-! ### Encoding (30_encoding.md; the word format is the spec's own choice, 92_eei_decisions.md D3 to D6) -/

/-- Words of 95_test_vectors.md part B, at least one of each family, decode to their instructions, and words of its
second table decode to none. The encodings are the spec's own choice (D3 to D6). -/
def Obligations.SpecWordsDecode : Prop :=
  decode 0x0000123456789ABCDEF0 = .ok (.pushI 0x123456789ABCDEF0) ∧
  decode 0x02500000000000000000 = .ok (.pop .sp) ∧
  decode 0x04100000000000000000 = .ok (.sub .b .a) ∧
  decode 0x08450000000000000000 = .ok (.and .ip .sp) ∧
  decode 0x0C100000000000000000 = .ok (.inp .b) ∧
  decode 0x0E230000000000000000 = .ok (.gt .c .d) ∧
  decode 0x1100FFFFFFFFFFFFFFFE = .ok (.jmpRel 0xFFFFFFFFFFFFFFFE) ∧
  decode 0x13000000000000000000 = .ok .ret ∧
  decode 0x14300000000000000000 = .ok (.print .d) ∧
  decode 0x15000000000000000000 = .ok .halt ∧
  (∀ i, decode 0x16000000000000000000 ≠ .ok i) ∧
  (∀ i, decode 0x15000000000000000001 ≠ .ok i) ∧
  ∀ i, decode 0x030F0000000000000000 ≠ .ok i

/-- 30_encoding.md section 3, "For every instruction `i`, `decode(encode(i)) = i`" (an inference the spec marks as its
own, over its own word format). Every instruction, with every operand, is well-formed by type. -/
def Obligations.DecodeOfEncode : Prop := ∀ i : Instr, decode (encode i) = .ok i

/-- 30_encoding.md section 3, "for every word `w` with `decode(w) != Invalid`, `encode(decode(w)) = w`" (an inference
the spec marks as its own): no bit of a valid word is dropped, and an instruction has exactly one word. -/
def Obligations.EncodeOfDecode : Prop := ∀ (w : InstrWord) (i : Instr), decode w = .ok i → encode i = w

/-- 30_encoding.md section 3: a word is an instruction exactly when it fits a row of the opcode table, by mask, match
and register constraint (the spec's own choice D5). The table stands apart from the decoder, in WellFormed.lean. -/
def Obligations.DecodableIffTableRow : Prop :=
  ∀ w : InstrWord, (∃ i, decode w = .ok i) ↔ wellFormedWord w = true

/-- 30_encoding.md section 3, "The number of valid words is `2 + 4 * 2^64 + 4 * 6 + 12 * 36`" (an inference the spec
marks as its own). -/
def Obligations.ValidWordCount : Prop :=
  Nat.card { w : InstrWord // ∃ i, decode w = .ok i } = 2 + 4 * 2 ^ 64 + 4 * 6 + 12 * 36

/-! ### The stack instructions (41_stack.md) -/

/-- R72. The opcode number is the one the rule names. -/
def Obligations.PushImmediate : Prop :=
  ∀ (imm : Word) (s : State),
    decode (packWord 0x00 0 0 imm) = .ok (.pushI imm) ∧
    (s.sp.toNat < 255 → ∃ t, exec (.pushI imm) s = .next t ∧ PushResult imm (s.ip + 1) s t) ∧
    (255 ≤ s.sp.toNat → ∃ t, exec (.pushI imm) s = .next t ∧ FaultTaken 2 s t)

/-- 41_stack.md section 2, `PushR`: the operand is read before the push (the spec's own choice, 92_eei_decisions.md D15;
the fault for SP above 255 is its choice D13), so `PushR(SP)` pushes the old SP and `PushR(IP)` its own address. -/
def Obligations.PushRegister : Prop :=
  ∀ (r : Reg) (s : State),
    decode (packWord 0x01 (regNumber r) 0 0) = .ok (.pushR r) ∧
    (s.sp.toNat < 255 → ∃ t, exec (.pushR r) s = .next t ∧ PushResult (s.getReg r) (s.ip + 1) s t) ∧
    (255 ≤ s.sp.toNat → ∃ t, exec (.pushR r) s = .next t ∧ FaultTaken 2 s t)

/-- 41_stack.md section 2, `Pop`: the destination is written last (the spec's own choice, 92_eei_decisions.md D15), so
`Pop(SP)` leaves the popped word in SP and `Pop(IP)` continues one past it; no slot changes (its choice D22); SP = 0 and
SP above 255 fault (its choice D13). -/
def Obligations.PopRegister : Prop :=
  ∀ (r : Reg) (s : State),
    decode (packWord 0x02 (regNumber r) 0 0) = .ok (.pop r) ∧
    (1 ≤ s.sp.toNat → s.sp.toNat ≤ 255 → ∃ t, exec (.pop r) s = .next t ∧
      (r ≠ .ip → t.getReg r = topWord s) ∧
      (r ≠ .sp → t.sp.toNat = s.sp.toNat - 1) ∧
      t.ip = (if r = .ip then topWord s else s.ip) + 1 ∧
      RegsKept [r, .sp, .ip] s t ∧ StackKept s t ∧ ControlKept s t ∧ EnvKept s t) ∧
    (s.sp.toNat = 0 ∨ 255 < s.sp.toNat → ∃ t, exec (.pop r) s = .next t ∧ FaultTaken 2 s t)

/-- 41_stack.md section 3, first law (narrowed by 90_conflicts.md C8, an inference the spec marks as its own): `PushI(v)`
then `Pop(r)` leaves `v` in `r` and SP as it was, with the exceptions it names for SP and IP, and the slot at the old SP
overwritten. -/
def Obligations.PushImmediateThenPop : Prop :=
  ∀ (v : Word) (r : Reg) (s : State), s.sp.toNat ≤ 254 →
    ∃ t u, exec (.pushI v) s = .next t ∧ exec (.pop r) t = .next u ∧
      (r ≠ .ip → u.getReg r = v) ∧ (r ≠ .sp → u.sp = s.sp) ∧ (r = .ip → u.ip = v + 1) ∧
      StackStored s.sp.toNat v s u

/-- 41_stack.md section 3, second law (an inference the spec marks as its own): `PushR(r)` then `Pop(q)` copies `r` into
`q`, and leaves SP and every other register but IP as they were. -/
def Obligations.PushRegisterThenPop : Prop :=
  ∀ (r q : Reg) (s : State), s.sp.toNat ≤ 254 → q ≠ .ip → q ≠ .sp →
    ∃ t u, exec (.pushR r) s = .next t ∧ exec (.pop q) t = .next u ∧
      u.getReg q = s.getReg r ∧ RegsKept [q, .ip] s u ∧ u.ip = s.ip + 2

/-- 10_state.md section 3 and 41_stack.md section 1 (the spec's own choice, 92_eei_decisions.md D13): a write of SP never
faults, whatever the word, and the next use of the stack faults when that word is out of range. -/
def Obligations.StackPointerCheckedAtNextUse : Prop :=
  ∀ (s : State), 1 ≤ s.sp.toNat → s.sp.toNat ≤ 255 →
    ∃ t, exec (.pop .sp) s = .next t ∧ t.sp = topWord s ∧ ControlKept s t ∧
      (255 ≤ (topWord s).toNat → ∀ v, ∃ u, exec (.pushI v) t = .next u ∧ FaultTaken 2 t u) ∧
      ((topWord s).toNat = 0 ∨ 255 < (topWord s).toNat → ∀ r, ∃ u, exec (.pop r) t = .next u ∧ FaultTaken 2 t u)

/-- The stack storage is canonical (log entry 7, the model's choice): two canonical storages that read the same in every
slot are the same data. -/
def Obligations.EqualSlotsEqualStorage : Prop :=
  ∀ m m' : Memory, m.wf → m'.wf → (∀ i, m.read i = m'.read i) → m = m'

/-! ### Arithmetic and bitwise instructions (42_alu.md) -/

/-- R78. -/
def Obligations.AddWrapsModulo : Prop :=
  ∀ (l r : Reg) (s : State),
    decode (packWord 0x03 (regNumber l) (regNumber r) 0) = .ok (.add l r) ∧
    ∃ t v, exec (.add l r) s = .next t ∧
      v.toNat = ((s.getReg l).toNat + (s.getReg r).toNat) % 2 ^ 64 ∧ RegisterResult l v s t

/-- R79. -/
def Obligations.SubIsLeftMinusRight : Prop :=
  ∀ (l r : Reg) (s : State),
    decode (packWord 0x04 (regNumber l) (regNumber r) 0) = .ok (.sub l r) ∧
    ∃ t v, exec (.sub l r) s = .next t ∧
      (v.toNat : Int) = ((s.getReg l).toNat - (s.getReg r).toNat) % 2 ^ 64 ∧ RegisterResult l v s t

/-- R80. -/
def Obligations.MulKeepsLowHalf : Prop :=
  ∀ (l r : Reg) (s : State),
    decode (packWord 0x05 (regNumber l) (regNumber r) 0) = .ok (.mul l r) ∧
    ∃ t v, exec (.mul l r) s = .next t ∧
      v.toNat = ((s.getReg l).toNat * (s.getReg r).toNat) % 2 ^ 64 ∧ RegisterResult l v s t

/-- 42_alu.md section 2, `Div`: the unsigned floor quotient (the spec's own choice, 92_eei_decisions.md D16), or
ArithmeticFault for a zero divisor. -/
def Obligations.DivIsFloorQuotient : Prop :=
  ∀ (l r : Reg) (s : State),
    decode (packWord 0x06 (regNumber l) (regNumber r) 0) = .ok (.div l r) ∧
    (s.getReg r ≠ 0 → ∃ t v, exec (.div l r) s = .next t ∧
      v.toNat * (s.getReg r).toNat ≤ (s.getReg l).toNat ∧
      (s.getReg l).toNat < (v.toNat + 1) * (s.getReg r).toNat ∧ RegisterResult l v s t) ∧
    (s.getReg r = 0 → ∃ t, exec (.div l r) s = .next t ∧ FaultTaken 3 s t)

/-- R82, bit by bit. -/
def Obligations.XorIsBitwise : Prop :=
  ∀ (l r : Reg) (s : State),
    decode (packWord 0x07 (regNumber l) (regNumber r) 0) = .ok (.xor l r) ∧
    ∃ t v, exec (.xor l r) s = .next t ∧
      (∀ k < 64, v.toNat.testBit k = ((s.getReg l).toNat.testBit k != (s.getReg r).toNat.testBit k)) ∧
      RegisterResult l v s t

/-- R83, bit by bit. -/
def Obligations.AndIsBitwise : Prop :=
  ∀ (l r : Reg) (s : State),
    decode (packWord 0x08 (regNumber l) (regNumber r) 0) = .ok (.and l r) ∧
    ∃ t v, exec (.and l r) s = .next t ∧
      (∀ k < 64, v.toNat.testBit k = ((s.getReg l).toNat.testBit k && (s.getReg r).toNat.testBit k)) ∧
      RegisterResult l v s t

/-- R84, bit by bit. -/
def Obligations.OrIsBitwise : Prop :=
  ∀ (l r : Reg) (s : State),
    decode (packWord 0x09 (regNumber l) (regNumber r) 0) = .ok (.or l r) ∧
    ∃ t v, exec (.or l r) s = .next t ∧
      (∀ k < 64, v.toNat.testBit k = ((s.getReg l).toNat.testBit k || (s.getReg r).toNat.testBit k)) ∧
      RegisterResult l v s t

/-- R85. The amount is the whole word. -/
def Obligations.ShlMultipliesByPower : Prop :=
  ∀ (l r : Reg) (s : State),
    decode (packWord 0x0A (regNumber l) (regNumber r) 0) = .ok (.shl l r) ∧
    ((s.getReg r).toNat < 64 → ∃ t v, exec (.shl l r) s = .next t ∧
      v.toNat = ((s.getReg l).toNat * 2 ^ (s.getReg r).toNat) % 2 ^ 64 ∧ RegisterResult l v s t) ∧
    (64 ≤ (s.getReg r).toNat → ∃ t, exec (.shl l r) s = .next t ∧ FaultTaken 3 s t)

/-- 42_alu.md section 2, `Shr`: the shift is logical (the spec's own choice, 92_eei_decisions.md D16). -/
def Obligations.ShrDividesByPower : Prop :=
  ∀ (l r : Reg) (s : State),
    decode (packWord 0x0B (regNumber l) (regNumber r) 0) = .ok (.shr l r) ∧
    ((s.getReg r).toNat < 64 → ∃ t v, exec (.shr l r) s = .next t ∧
      v.toNat = (s.getReg l).toNat / 2 ^ (s.getReg r).toNat ∧ RegisterResult l v s t) ∧
    (64 ≤ (s.getReg r).toNat → ∃ t, exec (.shr l r) s = .next t ∧ FaultTaken 3 s t)

/-- 42_alu.md section 3, the same register as both operands (an inference the spec marks as its own): the results it
lists, for every register, IP and SP among them. -/
def Obligations.SameRegisterTwice : Prop :=
  ∀ (l : Reg) (s : State),
    let x := s.getReg l
    (∃ t, exec (.sub l l) s = .next t ∧ RegisterResult l 0 s t) ∧
    (∃ t, exec (.xor l l) s = .next t ∧ RegisterResult l 0 s t) ∧
    (∃ t, exec (.and l l) s = .next t ∧ RegisterResult l x s t) ∧
    (∃ t, exec (.or l l) s = .next t ∧ RegisterResult l x s t) ∧
    (∃ t v, exec (.add l l) s = .next t ∧ v.toNat = 2 * x.toNat % 2 ^ 64 ∧ RegisterResult l v s t) ∧
    (∃ t v, exec (.mul l l) s = .next t ∧ v.toNat = x.toNat ^ 2 % 2 ^ 64 ∧ RegisterResult l v s t) ∧
    (x ≠ 0 → ∃ t, exec (.div l l) s = .next t ∧ RegisterResult l 1 s t) ∧
    (x = 0 → ∃ t, exec (.div l l) s = .next t ∧ FaultTaken 3 s t) ∧
    (64 ≤ x.toNat → ∃ t u, exec (.shl l l) s = .next t ∧ FaultTaken 3 s t ∧
      exec (.shr l l) s = .next u ∧ FaultTaken 3 s u) ∧
    (x.toNat < 64 → (∃ t, exec (.shr l l) s = .next t ∧ RegisterResult l 0 s t) ∧
      ∃ t v, exec (.shl l l) s = .next t ∧ v.toNat = x.toNat * 2 ^ x.toNat % 2 ^ 64 ∧ RegisterResult l v s t)

/-! ### Comparisons (43_compare.md) -/

/-- R91. -/
def Obligations.EqSkipsUnlessEqual : Prop :=
  ∀ (l r : Reg) (s : State),
    decode (packWord 0x0D (regNumber l) (regNumber r) 0) = .ok (.eq l r) ∧
    ∃ t, exec (.eq l r) s = .next t ∧ OnlyIp (s.ip + if (s.getReg l).toNat = (s.getReg r).toNat then 1 else 2) s t

/-- R92. -/
def Obligations.GtSkipsUnlessGreater : Prop :=
  ∀ (l r : Reg) (s : State),
    decode (packWord 0x0E (regNumber l) (regNumber r) 0) = .ok (.gt l r) ∧
    ∃ t, exec (.gt l r) s = .next t ∧ OnlyIp (s.ip + if (s.getReg r).toNat < (s.getReg l).toNat then 1 else 2) s t

/-- R93. -/
def Obligations.LtSkipsUnlessLess : Prop :=
  ∀ (l r : Reg) (s : State),
    decode (packWord 0x0F (regNumber l) (regNumber r) 0) = .ok (.lt l r) ∧
    ∃ t, exec (.lt l r) s = .next t ∧ OnlyIp (s.ip + if (s.getReg l).toNat < (s.getReg r).toNat then 1 else 2) s t

/-- 43_compare.md section 3 (an inference the spec marks as its own): of the three comparisons of two operands exactly
one continues with the next instruction, and the other two skip it. -/
def Obligations.ExactlyOneComparisonHolds : Prop :=
  ∀ (l r : Reg) (s : State), ∃ te tg tl,
    exec (.eq l r) s = .next te ∧ exec (.gt l r) s = .next tg ∧ exec (.lt l r) s = .next tl ∧
    ((te.ip = s.ip + 1 ∧ tg.ip = s.ip + 2 ∧ tl.ip = s.ip + 2) ∨
      (te.ip = s.ip + 2 ∧ tg.ip = s.ip + 1 ∧ tl.ip = s.ip + 2) ∨
      (te.ip = s.ip + 2 ∧ tg.ip = s.ip + 2 ∧ tl.ip = s.ip + 1))

/-! ### Control transfer (44_control.md) -/

/-- R95: the target is exact, nothing but IP changes, and a bad target is found by the next fetch. -/
def Obligations.JmpContinuesAtTarget : Prop :=
  ∀ (addr : Word) (s : State),
    decode (packWord 0x10 0 0 addr) = .ok (.jmp addr) ∧
    ∃ t, exec (.jmp addr) s = .next t ∧ OnlyIp addr s t ∧ BadTargetFoundAtFetch s t

/-- 44_control.md section 1, `JmpRel`: the target is the address of the `JmpRel` plus the offset modulo 2^64 (the spec's
own choice, 92_eei_decisions.md D12), and `2^64 - k` goes back by `k`. -/
def Obligations.JmpRelAddsOffset : Prop :=
  ∀ (off : Word) (s : State),
    decode (packWord 0x11 0 0 off) = .ok (.jmpRel off) ∧
    ∃ t, exec (.jmpRel off) s = .next t ∧ OnlyIp (s.ip + off) s t ∧ BadTargetFoundAtFetch s t ∧
      ∀ k : Nat, 1 ≤ k → k ≤ s.ip.toNat → off.toNat = 2 ^ 64 - k → t.ip.toNat = s.ip.toNat - k

/-- 40_run_loop.md section 3 (an inference the spec marks as its own): `JmpRel(0)` repeats itself for ever, the state
never changing. -/
def Obligations.JmpRelZeroNeverEnds : Prop :=
  ∀ (s : State) (k : Nat), s.phase = .running → s.prog[s.ip.toNat]? = some 0x11000000000000000000 →
    Sys2Proof.core.run k s = .next s

/-- R97: the return address is pushed at the old SP, then the jump; a full stack faults with no jump; a bad target is
found by the next fetch, after the push. -/
def Obligations.CallPushesReturnAddress : Prop :=
  ∀ (addr : Word) (s : State),
    decode (packWord 0x12 0 0 addr) = .ok (.call addr) ∧
    (s.sp.toNat < 255 → ∃ t, exec (.call addr) s = .next t ∧ PushResult (s.ip + 1) addr s t ∧
      BadTargetFoundAtFetch s t) ∧
    (255 ≤ s.sp.toNat → ∃ t, exec (.call addr) s = .next t ∧ FaultTaken 2 s t)

/-- 44_control.md section 1, `Call`, corner case, over a run: a `Call` of its own address on an
empty stack fills the 255 slots with its return address and faults at the 256th execution. -/
def Obligations.EndlessRecursionFillsTheStack : Prop :=
  ∀ s : State, s.phase = .running → s.sp = 0 → s.prog[s.ip.toNat]? = some (encode (.call s.ip)) →
    (∀ k ≤ 255, ∃ t, Sys2Proof.core.run k s = .next t ∧ t.phase = .running ∧ t.ip = s.ip ∧ t.sp.toNat = k ∧
      ∀ j, t.stack.read j = if j < k then s.ip + 1 else s.stack.read j) ∧
    ∃ t u, Sys2Proof.core.run 255 s = .next t ∧ Sys2Proof.core.run 256 s = .next u ∧ FaultTaken 2 t u

/-- R98: execution continues at the popped word itself; an empty stack or an SP above 255 faults; a popped word that is
no address is found by the next fetch. -/
def Obligations.RetContinuesAtPoppedWord : Prop :=
  ∀ s : State,
    decode (packWord 0x13 0 0 0) = .ok .ret ∧
    (1 ≤ s.sp.toNat → s.sp.toNat ≤ 255 → ∃ t, exec .ret s = .next t ∧ t.ip = topWord s ∧
      t.sp.toNat = s.sp.toNat - 1 ∧ RegsKept [.sp, .ip] s t ∧ StackKept s t ∧ ControlKept s t ∧ EnvKept s t ∧
      BadTargetFoundAtFetch s t) ∧
    (s.sp.toNat = 0 ∨ 255 < s.sp.toNat → ∃ t, exec .ret s = .next t ∧ FaultTaken 2 s t)

/-- R99: `halt` is set and nothing else changes, IP among it; no other instruction writes `halt`; a running machine is
then Halted, which is terminal. -/
def Obligations.HaltStopsTheMachine : Prop :=
  decode (packWord 0x15 0 0 0) = .ok .halt ∧
  ∀ s : State,
    (∃ t, exec .halt s = .next t ∧ t.halt = true ∧ RegsKept [] s t ∧ StackKept s t ∧ t.started = s.started ∧
      t.fault = s.fault ∧ EnvKept s t ∧
      (s.phase = .running → t.phase = .halted ∧ ∀ u, step t = .next u → u = t)) ∧
    ∀ i u, i ≠ .halt → exec i s = .next u → u.halt = s.halt

/-- 44_control.md section 2, property (3) (an inference the spec marks as its own): a `Ret` that finds the word a `Call`
pushed, with SP as the call left it, continues after the call with the call's SP. -/
def Obligations.CallThenRetReturns : Prop :=
  ∀ (addr : Word) (s u : State), s.sp.toNat ≤ 254 →
    ∃ t, exec (.call addr) s = .next t ∧
      (u.sp = t.sp → u.stack.read s.sp.toNat = t.stack.read s.sp.toNat →
        ∃ w, exec .ret u = .next w ∧ w.ip = s.ip + 1 ∧ w.sp = s.sp)

/-! ### Input and output (45_io.md) -/

/-- R105: carriage returns are consumed and discarded, the first other byte is kept and the rest of the stream is left;
at the end of the stream `Inp` faults with the register and IP as they were. -/
def Obligations.InpKeepsFirstOtherByte : Prop :=
  ∀ (r : Reg) (s : State),
    decode (packWord 0x0C (regNumber r) 0 0) = .ok (.inp r) ∧
    (∀ (n : Nat) (b : Byte) (left : List Byte), s.input = List.replicate n 0x0D ++ b :: left → b ≠ 0x0D →
      ∃ t v, exec (.inp r) s = .next t ∧ v.toNat = b.toNat ∧ RegisterResult r v { s with input := left } t) ∧
    (∀ n : Nat, s.input = List.replicate n 0x0D → s.inputOpen = false →
      ∃ t, exec (.inp r) s = .next t ∧ FaultTaken 4 { s with input := [] } t)

/-- 45_io.md section 1, waiting (that it is a stop of the step, with the bytes consumed, is the model's choice, log entries
4 and 5): while the channel has not answered, the step has no next state. Once the channel delivers a byte that is kept the
same `Inp` completes with it, in one step, and once the channel ends its stream the `Inp` faults. -/
def Obligations.InpWaitsForTheChannel : Prop :=
  ∀ (r : Reg) (n : Nat) (b : Byte) (left : List Byte) (s : State),
    s.inputOpen = true → s.input = List.replicate n 0x0D →
      exec (.inp r) s = .fault (.inputNotAnswered n) ∧
      (b ≠ 0x0D → ∃ t v, exec (.inp r) (channelDeliver (b :: left) s) = .next t ∧ v.toNat = b.toNat ∧
        RegisterResult r v { s with input := left } t) ∧
      ∃ t, exec (.inp r) (channelEnd s) = .next t ∧ FaultTaken 4 { channelEnd s with input := [] } t

/-- R109: the low 8 bits go to the output log, and nothing else changes but IP. -/
def Obligations.PrintWritesLowByte : Prop :=
  ∀ (r : Reg) (s : State),
    decode (packWord 0x14 (regNumber r) 0 0) = .ok (.print r) ∧
    ∃ t b, exec (.print r) s = .next t ∧ b.toNat = (s.getReg r).toNat % 256 ∧
      OnlyIp (s.ip + 1) { s with output := s.output ++ [b] } t

/-- 20_memory.md section 6, order of I/O, and 10_state.md section 7, over a run of any length: input is only consumed,
first byte first, output is only appended, and only `Inp` and `Print` do so. -/
def Obligations.PortsAreUsedInOrder : Prop :=
  (∀ (k : Nat) (s t : State), Sys2Proof.core.run k s = .next t →
    (∃ consumed, s.input = consumed ++ t.input) ∧ ∃ written, t.output = s.output ++ written) ∧
  ∀ (i : Instr) (s t : State), exec i s = .next t →
    (t.input ≠ s.input → ∃ r, i = .inp r) ∧ (t.output ≠ s.output → ∃ r, i = .print r)

/-- 20_memory.md section 6 and 10_state.md section 7: bytes the channel has yet to deliver have no influence on a step
that does not reach them. -/
def Obligations.UnreadInputHasNoInfluence : Prop :=
  ∀ (s : State) (b : Byte) (later : List Byte), b ∈ s.input → b ≠ 0x0D →
    step { s with input := s.input ++ later } = mapNext (fun t => { t with input := t.input ++ later }) (step s)

/-! ### The run loop (40_run_loop.md) -/

/-- 40_run_loop.md section 1: a step in phase Running executes the instruction the word at IP decodes to, and does nothing
around it (the increment of IP is in `exec`, at the end of the instruction). -/
def Obligations.StepRunsTheDecodedInstruction : Prop :=
  ∀ (s : State) (w : InstrWord) (i : Instr), s.phase = .running → s.prog[s.ip.toNat]? = some w → decode w = .ok i →
    step s = exec i s

/-- 40_run_loop.md section 1, fetch (the spec's own choice, 92_eei_decisions.md D10): an IP that is no address of the
program faults and nothing else happens. -/
def Obligations.FetchOutOfRangeFaults : Prop :=
  ∀ s : State, s.phase = .running → s.prog.length ≤ s.ip.toNat → ∃ t, step s = .next t ∧ FaultTaken 1 s t

/-- 40_run_loop.md section 1, decode (the spec's own choice, 92_eei_decisions.md D6): a word that fits no row of the opcode
table faults and nothing else happens. -/
def Obligations.InvalidWordFaults : Prop :=
  ∀ (s : State) (w : InstrWord), s.phase = .running → s.prog[s.ip.toNat]? = some w → wellFormedWord w = false →
    ∃ t, step s = .next t ∧ FaultTaken 5 s t

/-- The model's choice (log entry 3) for 40_run_loop.md section 1, "In `Ready`, `Halted` and `Faulted` it takes none": the
model's step then answers the same state. -/
def Obligations.NoStepOutsideRunning : Prop := ∀ s : State, s.phase ≠ .running → step s = .next s

/-- The model's choice (log entry 2): the word of any instruction placed at IP is what the next step runs, in a state that
differs only in the program, `started`, `halt` and `fault`. -/
def Obligations.PlacedInstructionRuns : Prop :=
  ∀ (s : State) (i : Instr), ∃ p, (s.withFetchWord 80 (encode i).toNat) =
      { s with prog := p, started := true, halt := false, fault := 0 } ∧
    step (s.withFetchWord 80 (encode i).toNat) = exec i (s.withFetchWord 80 (encode i).toNat)

/-- R68: the phases a step or the host's `run` can lead to. A step out of phase Running leads to Running, to Halted with
`halt = 1` and `fault = 0`, or to Faulted with `halt = 0`; the one transition out of Halted and Faulted is reset, and out
of Ready `run`, which sets `started`. -/
def Obligations.PhaseTransitions : Prop :=
  (∀ (prog : List InstrWord) (s t : State), hostReset prog s = some t → t.phase = .ready) ∧
  (∀ s : State, s.phase = .ready → (hostRun s).phase = .running ∧ (hostRun s).started = true) ∧
  (∀ s t : State, s.phase = .running → step s = .next t →
    t.phase = .running ∨ (t.phase = .halted ∧ t.halt = true ∧ t.fault = 0) ∨
      (t.phase = .faulted ∧ t.halt = false ∧ t.fault ≠ 0)) ∧
  (∀ s t : State, s.phase ≠ .running → step s = .next t → t = s) ∧
  ∀ s : State, s.phase = .halted ∨ s.phase = .faulted →
    hostRun s = s ∧ ∀ prog, ∃ t, hostReset prog s = some t

/-- 10_state.md section 6 and 60_exceptions.md section 5 (an inference the spec marks as its own): from a halted or faulted
machine, a run of any length that answers a state answers that same state, and `run` has no effect (the spec's own choice,
92_eei_decisions.md D19), so a fault is written at most once. -/
def Obligations.EndedRunsStayEnded : Prop :=
  ∀ (k : Nat) (s t : State), s.phase = .halted ∨ s.phase = .faulted →
    (Sys2Proof.core.run k s = .next t → t = s) ∧ hostRun s = s

/-- 60_exceptions.md section 5: a run that is safe for `k + j` steps was safe for `k`, since nothing leaves phase
Faulted. -/
def Obligations.SafeRunsWereSafeBefore : Prop := ∀ (k j : Nat) (s : State), safeFor (k + j) s → safeFor k s

/-- 70_reset_and_hazards.md section 5 (an inference the spec marks as its own): in phase Running CORE can take its next
step, except inside an `Inp` whose channel has not answered; there the step has no successor (93_implementation_defined.md
section 4), which the model answers with the stop of log entry 5. That the step answers in the phases in which CORE takes
none is the model's choice (log entry 3). -/
def Obligations.StepAnswersUnlessInputIsAwaited : Prop :=
  ∀ s : State, (¬ AwaitsInput s → ∃ t, step s = .next t) ∧
    (AwaitsInput s → step s = .fault (.inputNotAnswered s.input.length))

/-! ### Faults (60_exceptions.md) -/

/-- 60_exceptions.md sections 1 to 3 (the codes and the fault of the decoder are the spec's own choices,
92_eei_decisions.md D6 and D7): a step that raises a fault, at fetch, at decode or in an instruction, writes the code of
its cause and does nothing else to CORE (an `Inp` has consumed the input, which is the channel's); the phase is then
Faulted, and no further step changes anything. -/
def Obligations.FaultWritesOnlyItsCode : Prop :=
  ∀ s t : State, s.phase = .running → step s = .next t → t.fault ≠ 0 →
    t = { s with fault := t.fault, input := t.input } ∧ FaultOfCause s t ∧ t.phase = .faulted ∧ ∀ u, step t = .next u → u = t

/-- 60_exceptions.md section 3 (an inference the spec marks as its own): the fault kinds each instruction can raise. -/
def Obligations.FaultKindsOfEachInstruction : Prop :=
  ∀ (i : Instr) (s t : State), s.fault = 0 → exec i s = .next t → t.fault ≠ 0 → faultCodeOf i = some t.fault

/-! ### State (10_state.md) -/

/-- R11: an instruction that does not name a general-purpose register neither changes it nor depends on it. -/
def Obligations.GeneralRegistersOnlyThroughOperands : Prop :=
  ∀ (i : Instr) (g : Reg) (s : State) (v : Word), g ≠ .ip → g ≠ .sp → g ∉ i.operands →
    (∀ t, exec i s = .next t → t.getReg g = s.getReg g) ∧
    exec i (s.setReg g v) = mapNext (fun t => t.setReg g v) (exec i s)

/-- R18: a run of any length leaves the program as it was, no instruction reads it as data, and with `N = 0` the first
fetch faults. -/
def Obligations.ProgramIsImmutableAndOnlyFetched : Prop :=
  (∀ (k : Nat) (s t : State), Sys2Proof.core.run k s = .next t → t.prog = s.prog) ∧
  (∀ (i : Instr) (s : State) (p : List InstrWord),
    exec i { s with prog := p } = mapNext (fun t => { t with prog := p }) (exec i s)) ∧
  ∀ s : State, s.phase = .running → s.prog = [] → ∃ t, step s = .next t ∧ FaultTaken 1 s t

/-- R19: `halt` is 0 after reset and while running, only `Halt` sets it and nothing clears it, no instruction reads it, the
run loop and the host do, and a fault leaves it 0. -/
def Obligations.HaltFlagIsSetOnlyByHalt : Prop :=
  (∀ (prog : List InstrWord) (s t : State), hostReset prog s = some t → t.halt = false) ∧
  (∀ s : State, s.phase = .running → s.halt = false) ∧
  (∀ (s : State) (o : Observation), hostObserve s = some o → o.halt = s.halt) ∧
  (∀ (i : Instr) (s t : State), exec i s = .next t → t.halt = s.halt ∨ (i = .halt ∧ t.halt = true)) ∧
  (∀ (i : Instr) (s : State) (h : Bool), i ≠ .halt →
    exec i { s with halt := h } = mapNext (fun t => { t with halt := h }) (exec i s)) ∧
  (∀ (s : State) (h : Bool), exec .halt { s with halt := h } = exec .halt s) ∧
  (∀ s t : State, s.halt = true → step s = .next t → t = s) ∧
  ∀ s t : State, s.phase = .running → step s = .next t → t.fault ≠ 0 → t.halt = false

/-- The invariant of Sys2Proof/Safety.lean holds after reset with any program the spec admits, after the host's `run`, and
of the model's reset state. -/
def Obligations.InvariantAfterReset : Prop :=
  Inv State.reset ∧
  ∀ (prog : List InstrWord) (s t : State), wellFormedProgram prog = true → hostReset prog s = some t →
    Inv t ∧ Inv (hostRun t)

/-- The invariant of Sys2Proof/Safety.lean is kept by every step, from every state that has it: the stack storage stays
canonical and inside its 255 slots, `fault` stays one of the codes 0 to 5, `halt` and a fault never hold together, only a
started machine ends, and the program keeps its length (20_memory.md section 1, 10_state.md section 6; the canonical form
is the model's choice, log entry 7). -/
def Obligations.InvariantKeptByEveryStep : Prop := ∀ s t : State, Inv s → step s = .next t → Inv t

/-! ### Reset and start (70_reset_and_hazards.md) -/

/-- R135: a reset constructs the machine from the program, every piece of state of CORE at the value listed, whatever it
was; what of the environment is given with it (`bytes`, `more`) makes no difference. The host has it in every phase but
Running. -/
def Obligations.ResetSetsEveryField : Prop :=
  (∀ (prog : List InstrWord) (bytes : List Byte) (more : Bool),
    (∀ r, (State.resetWith prog bytes more).getReg r = 0) ∧ (∀ i, (State.resetWith prog bytes more).stack.read i = 0) ∧
    (State.resetWith prog bytes more).halt = false ∧ (State.resetWith prog bytes more).started = false ∧
    (State.resetWith prog bytes more).fault = 0 ∧ (State.resetWith prog bytes more).phase = .ready ∧
    (State.resetWith prog bytes more).prog = prog) ∧
  ∀ (prog : List InstrWord) (s : State), s.phase ≠ .running →
    ∃ bytes more, hostReset prog s = some (State.resetWith prog bytes more)

/-- 10_state.md section 8 and 70_reset_and_hazards.md section 1, the environment at reset: the channel keeps what it has
still to deliver and the output log is empty (92_eei_decisions.md D18). `State.reset` is a reset with the empty program
and an ended input, the model's choice (log entry 6). -/
def Obligations.ResetLeavesTheChannel : Prop :=
  (∀ (prog : List InstrWord) (s t : State), hostReset prog s = some t →
    t.input = s.input ∧ t.inputOpen = s.inputOpen ∧ t.output = []) ∧
  hostReset [] State.reset = some State.reset ∧ State.reset.prog = [] ∧ State.reset.input = [] ∧
  State.reset.inputOpen = false

/-- 70_reset_and_hazards.md section 2 (the spec's own choice, 92_eei_decisions.md D23): between `run` and the terminal
phase the host has no move, neither a reset nor an observation, and `run` has no effect. That a reset in phase Running is
no move, although 10_state.md section 7 names no phase for it, is the model's reading (log entry 11); log entry 10 says
the like of an observation. -/
def Obligations.RunningMachineHasNoHostMove : Prop :=
  ∀ s : State, s.phase = .running → (∀ prog, hostReset prog s = none) ∧ hostObserve s = none ∧ hostRun s = s

/-- 10_state.md section 7, the host's `run` (its effect outside Ready is the spec's own choice, 92_eei_decisions.md D19):
in Ready it sets `started` and nothing else, in any other phase it has no effect. -/
def Obligations.RunStartsOnlyFromReady : Prop :=
  ∀ s : State, (s.phase = .ready → hostRun s = { s with started := true } ∧ (hostRun s).phase = .running) ∧
    (s.phase ≠ .ready → hostRun s = s)

/-- 70_reset_and_hazards.md section 1 and 40_run_loop.md section 1: the first step after reset and `run` fetches the word
at address 0. It executes that word's instruction, or takes IllegalInstruction when the word is none (that fault is the
spec's own choice, 92_eei_decisions.md D6, and its code 5 its choice D7). -/
def Obligations.ExecutionStartsAtAddressZero : Prop :=
  ∀ (w : InstrWord) (rest : List InstrWord) (s t : State), hostReset (w :: rest) s = some t →
    (hostRun t).ip = 0 ∧ (∀ i, decode w = .ok i → step (hostRun t) = exec i (hostRun t)) ∧
    (wellFormedWord w = false → ∃ u, step (hostRun t) = .next u ∧ FaultTaken 5 (hostRun t) u)
end

