-- ==== Sys2Proof/Laws/Decode.lean ====
section
/-!
SUPPORT. The fields of a packed word, the register numbers, and what each format of the decoder accepts.
-/
namespace Sys2Proof

@[simp] theorem fieldOp_packWord (op : BitVec 8) (l r : BitVec 4) (imm : Word) : fieldOp (packWord op l r imm) = op := by
  apply BitVec.eq_of_getLsbD_eq
  intro i hi
  simp only [fieldOp, packWord, BitVec.getLsbD_extractLsb', BitVec.getLsbD_append]
  grind

@[simp] theorem fieldL_packWord (op : BitVec 8) (l r : BitVec 4) (imm : Word) : fieldL (packWord op l r imm) = l := by
  apply BitVec.eq_of_getLsbD_eq
  intro i hi
  simp only [fieldL, packWord, BitVec.getLsbD_extractLsb', BitVec.getLsbD_append]
  grind

@[simp] theorem fieldR_packWord (op : BitVec 8) (l r : BitVec 4) (imm : Word) : fieldR (packWord op l r imm) = r := by
  apply BitVec.eq_of_getLsbD_eq
  intro i hi
  simp only [fieldR, packWord, BitVec.getLsbD_extractLsb', BitVec.getLsbD_append]
  grind

@[simp] theorem fieldImm_packWord (op : BitVec 8) (l r : BitVec 4) (imm : Word) :
    fieldImm (packWord op l r imm) = imm := by
  apply BitVec.eq_of_getLsbD_eq
  intro i hi
  simp only [fieldImm, packWord, BitVec.getLsbD_extractLsb', BitVec.getLsbD_append]
  grind

/-- A word is its four fields (R45). -/
theorem packWord_fields (w : InstrWord) : packWord (fieldOp w) (fieldL w) (fieldR w) (fieldImm w) = w := by
  apply BitVec.eq_of_getLsbD_eq
  intro i hi
  simp only [fieldOp, fieldL, fieldR, fieldImm, packWord, BitVec.getLsbD_extractLsb', BitVec.getLsbD_append]
  grind

@[simp] theorem regOfNumber_regNumber (r : Reg) : regOfNumber (regNumber r) = .ok r := by cases r <;> rfl

/-- Exactly the numbers 0 to 5 name registers, each its own (R47, R55). -/
theorem regOfNumber_ok_iff (n : BitVec 4) (r : Reg) : regOfNumber n = .ok r ↔ n = regNumber r := by
  have h : ∀ m : Fin 16, ∀ q ∈ [Reg.a, .b, .c, .d, .ip, .sp],
      regOfNumber (BitVec.ofFin m) = .ok q ↔ BitVec.ofFin m = regNumber q := by
    decide
  exact h n.toFin r (by cases r <;> simp)

/-- A number names a register exactly when it is at most 5 (R55). -/
theorem regOfNumber_isOk_iff (n : BitVec 4) : (∃ r, regOfNumber n = .ok r) ↔ n.toNat ≤ 5 := by
  constructor
  · rintro ⟨r, h⟩
    rw [(regOfNumber_ok_iff n r).1 h]
    cases r <;> decide
  · intro h
    have h' : n.toNat = 0 ∨ n.toNat = 1 ∨ n.toNat = 2 ∨ n.toNat = 3 ∨ n.toNat = 4 ∨ n.toNat = 5 := by omega
    unfold regOfNumber
    rcases h' with h | h | h | h | h | h <;> rw [h] <;> exact ⟨_, rfl⟩

/-- All that format N accepts (R46). -/
theorem decodeN_ok (w : InstrWord) (j i : Instr) (h : decodeN w j = .ok i) :
    fieldL w = 0 ∧ fieldR w = 0 ∧ fieldImm w = 0 ∧ i = j := by
  unfold decodeN at h
  split at h <;> simp_all

/-- All that format I accepts (R46). -/
theorem decodeI_ok (w : InstrWord) (mk : Word → Instr) (i : Instr) (h : decodeI w mk = .ok i) :
    fieldL w = 0 ∧ fieldR w = 0 ∧ i = mk (fieldImm w) := by
  unfold decodeI at h
  split at h <;> simp_all

/-- All that format R accepts (R46). -/
theorem decodeR_ok (w : InstrWord) (mk : Reg → Instr) (i : Instr) (h : decodeR w mk = .ok i) :
    fieldR w = 0 ∧ fieldImm w = 0 ∧ ∃ r, fieldL w = regNumber r ∧ i = mk r := by
  unfold decodeR at h
  split at h
  · split at h
    · rename_i hz _ r hr
      cases h
      exact ⟨hz.1, hz.2, r, (regOfNumber_ok_iff _ _).1 hr, rfl⟩
    · cases h
  · cases h

/-- All that format RR accepts (R46). -/
theorem decodeRR_ok (w : InstrWord) (mk : Reg → Reg → Instr) (i : Instr) (h : decodeRR w mk = .ok i) :
    fieldImm w = 0 ∧ ∃ l r, fieldL w = regNumber l ∧ fieldR w = regNumber r ∧ i = mk l r := by
  unfold decodeRR at h
  split at h
  · split at h
    · rename_i hz _ _ l r hl hr
      cases h
      exact ⟨hz, l, r, (regOfNumber_ok_iff _ _).1 hl, (regOfNumber_ok_iff _ _).1 hr, rfl⟩
    · cases h
    · cases h
  · cases h

/-- An opcode the decoder accepts is one of the 22 of the opcode map (R49, R52). -/
theorem decode_ok_op (w : InstrWord) (i : Instr) (h : decode w = .ok i) : (fieldOp w).toNat < 22 := by
  by_contra hn
  obtain ⟨k, hk⟩ : ∃ k, (fieldOp w).toNat = k + 22 := ⟨(fieldOp w).toNat - 22, by omega⟩
  unfold decode at h
  rw [hk] at h
  cases h

end Sys2Proof
end

