-- ==== Sys2Proof/Laws/Memory.lean ====
section
/-!
SUPPORT. The stack storage: a read after a write, and that every operation keeps the canonical form.
-/
namespace Sys2Proof.Machine

@[simp] theorem read_nil (i : Nat) : Memory.read [] i = 0 := rfl

theorem read_cons (c : Nat × Word) (m : Memory) (i : Nat) :
    Memory.read (c :: m) i = if c.1 = i then c.2 else Memory.read m i := rfl

/-- A slot no entry lists reads as its reset value (R27). -/
theorem read_of_not_listed (m : Memory) (i : Nat) (h : ∀ c ∈ m, c.1 ≠ i) : m.read i = 0 := by
  induction m with
  | nil => rfl
  | cons c m ih =>
    rw [read_cons, if_neg (h c (by simp)), ih fun x hx => h x (by simp [hx])]

theorem mem_erase (m : Memory) (i : Nat) (c : Nat × Word) : c ∈ m.erase i ↔ c ∈ m ∧ c.1 ≠ i := by
  induction m with
  | nil => simp [Memory.erase]
  | cons x m ih => unfold Memory.erase; grind

theorem mem_insert (m : Memory) (i : Nat) (v : Word) (c : Nat × Word) : c ∈ m.insert i v ↔ c = (i, v) ∨ c ∈ m := by
  induction m with
  | nil => simp [Memory.insert]
  | cons x m ih => unfold Memory.insert; grind

theorem read_erase (m : Memory) (i j : Nat) : (m.erase i).read j = if j = i then 0 else m.read j := by
  induction m with
  | nil => simp [Memory.erase]
  | cons c m ih => unfold Memory.erase; grind [read_cons]

theorem read_insert (m : Memory) (i j : Nat) (v : Word) (h : ∀ c ∈ m, c.1 ≠ i) :
    (m.insert i v).read j = if j = i then v else m.read j := by
  induction m with
  | nil => simp only [Memory.insert, read_cons, read_nil]; grind
  | cons c m ih => unfold Memory.insert; grind [read_cons]

/-- A write sets its slot and leaves every other slot alone, whatever the storage (R31). -/
theorem read_write (m : Memory) (i j : Nat) (v : Word) : (m.write i v).read j = if j = i then v else m.read j := by
  unfold Memory.write
  split
  · rename_i hv
    rw [read_erase, hv]
  · rw [read_insert _ _ _ _ fun c hc => ((mem_erase m i c).1 hc).2, read_erase]
    split <;> rfl

@[simp] theorem read_write_same (m : Memory) (i : Nat) (v : Word) : (m.write i v).read i = v := by
  rw [read_write, if_pos rfl]

theorem read_write_other (m : Memory) (i j : Nat) (v : Word) (h : j ≠ i) : (m.write i v).read j = m.read j := by
  rw [read_write, if_neg h]

/-! ### The canonical form -/

theorem wf_nil : Memory.wf [] := by simp [Memory.wf]

theorem wf_erase (m : Memory) (i : Nat) (h : Memory.wf m) : Memory.wf (m.erase i) := by
  obtain ⟨hp, hc⟩ := h
  refine ⟨?_, fun c hm => hc c ((mem_erase m i c).1 hm).1⟩
  clear hc
  induction m with
  | nil => exact hp
  | cons x m ih =>
    unfold Memory.erase
    rw [List.pairwise_cons] at hp
    split
    · exact ih hp.2
    · rw [List.pairwise_cons]
      exact ⟨fun c hm => hp.1 c ((mem_erase m i c).1 hm).1, ih hp.2⟩

theorem wf_insert (m : Memory) (i : Nat) (v : Word) (h : Memory.wf m) (hi : ∀ c ∈ m, c.1 ≠ i) (hcap : i < Config.cap)
    (hv : v ≠ 0) : Memory.wf (m.insert i v) := by
  obtain ⟨hp, hc⟩ := h
  refine ⟨?_, fun c hm => ?_⟩
  · clear hc
    induction m with
    | nil => simp [Memory.insert]
    | cons x m ih =>
      unfold Memory.insert
      rw [List.pairwise_cons] at hp
      have hx := hi x (by simp)
      split
      · rename_i hlt
        rw [List.pairwise_cons, List.pairwise_cons]
        refine ⟨fun c hm => ?_, hp⟩
        rcases List.mem_cons.1 hm with rfl | hm
        · exact hlt
        · exact Nat.lt_trans hlt (hp.1 c hm)
      · rw [List.pairwise_cons]
        refine ⟨fun c hm => ?_, ih (fun c hm => hi c (by simp [hm])) hp.2⟩
        rcases (mem_insert m i v c).1 hm with rfl | hm
        · show x.1 < i
          omega
        · exact hp.1 c hm
  · rcases (mem_insert m i v c).1 hm with rfl | hm
    · exact ⟨hv, hcap⟩
    · exact hc c hm

/-- Every write to a slot that exists keeps the canonical form. -/
theorem wf_write (m : Memory) (i : Nat) (v : Word) (h : Memory.wf m) (hcap : i < Config.cap) :
    Memory.wf (m.write i v) := by
  unfold Memory.write
  split
  · exact wf_erase m i h
  · exact wf_insert _ i v (wf_erase m i h) (fun c hc => ((mem_erase m i c).1 hc).2) hcap (by assumption)

/-- A slot outside `0 .. 254` is never listed, so it reads 0; nothing reads it (R31). -/
theorem read_outside (m : Memory) (h : Memory.wf m) (i : Nat) (hi : Config.cap ≤ i) : m.read i = 0 :=
  read_of_not_listed m i fun c hc => by have := (h.2 c hc).2; omega

/-- The storage after reset has the canonical form. -/
theorem reset_stack_wf : Memory.wf State.reset.stack := wf_nil

end Sys2Proof.Machine
end

