-- ==== Sys2Proof/Laws/State.lean ====
section
/-!
SUPPORT. The small lemmas of the state and its updates: what each register reads, and one lemma per field per update, so
that no later proof unfolds a record update.
-/
namespace Sys2Proof.Machine

/-! ### Reading and writing registers (R12) -/

@[simp] theorem getReg_a (s : State) : s.getReg .a = s.a := rfl
@[simp] theorem getReg_b (s : State) : s.getReg .b = s.b := rfl
@[simp] theorem getReg_c (s : State) : s.getReg .c = s.c := rfl
@[simp] theorem getReg_d (s : State) : s.getReg .d = s.d := rfl
@[simp] theorem getReg_ip (s : State) : s.getReg .ip = s.ip := rfl
@[simp] theorem getReg_sp (s : State) : s.getReg .sp = s.sp := rfl

@[simp] theorem setReg_a (s : State) (r : Reg) (v : Word) :
    (s.setReg r v).a = if r = .a then v else s.a := by cases r <;> rfl
@[simp] theorem setReg_b (s : State) (r : Reg) (v : Word) :
    (s.setReg r v).b = if r = .b then v else s.b := by cases r <;> rfl
@[simp] theorem setReg_c (s : State) (r : Reg) (v : Word) :
    (s.setReg r v).c = if r = .c then v else s.c := by cases r <;> rfl
@[simp] theorem setReg_d (s : State) (r : Reg) (v : Word) :
    (s.setReg r v).d = if r = .d then v else s.d := by cases r <;> rfl
@[simp] theorem setReg_ip (s : State) (r : Reg) (v : Word) :
    (s.setReg r v).ip = if r = .ip then v else s.ip := by cases r <;> rfl
@[simp] theorem setReg_sp (s : State) (r : Reg) (v : Word) :
    (s.setReg r v).sp = if r = .sp then v else s.sp := by cases r <;> rfl
@[simp] theorem setReg_stack (s : State) (r : Reg) (v : Word) : (s.setReg r v).stack = s.stack := by cases r <;> rfl
@[simp] theorem setReg_halt (s : State) (r : Reg) (v : Word) : (s.setReg r v).halt = s.halt := by cases r <;> rfl
@[simp] theorem setReg_started (s : State) (r : Reg) (v : Word) : (s.setReg r v).started = s.started := by cases r <;> rfl
@[simp] theorem setReg_fault (s : State) (r : Reg) (v : Word) : (s.setReg r v).fault = s.fault := by cases r <;> rfl
@[simp] theorem setReg_prog (s : State) (r : Reg) (v : Word) : (s.setReg r v).prog = s.prog := by cases r <;> rfl
@[simp] theorem setReg_input (s : State) (r : Reg) (v : Word) : (s.setReg r v).input = s.input := by cases r <;> rfl
@[simp] theorem setReg_inputOpen (s : State) (r : Reg) (v : Word) : (s.setReg r v).inputOpen = s.inputOpen := by cases r <;> rfl
@[simp] theorem setReg_output (s : State) (r : Reg) (v : Word) : (s.setReg r v).output = s.output := by cases r <;> rfl

/-- A register written reads back what was written, and no other register changes (R12). -/
theorem getReg_setReg (s : State) (r q : Reg) (v : Word) :
    (s.setReg r v).getReg q = if q = r then v else s.getReg q := by
  cases r <;> cases q <;> rfl

@[simp] theorem getReg_setReg_same (s : State) (r : Reg) (v : Word) : (s.setReg r v).getReg r = v := by
  cases r <;> rfl

theorem getReg_setReg_other (s : State) (r q : Reg) (v : Word) (h : q ≠ r) :
    (s.setReg r v).getReg q = s.getReg q := by
  rw [getReg_setReg, if_neg h]

/-- Writing back what a register holds changes nothing. -/
@[simp] theorem setReg_getReg (s : State) (r : Reg) : s.setReg r (s.getReg r) = s := by
  cases r <;> rfl

/-- Two states with the same registers and the same other fields are equal. -/
theorem state_ext_regs (s t : State) (hr : ∀ q, t.getReg q = s.getReg q) (h1 : t.stack = s.stack)
    (h2 : t.halt = s.halt) (h3 : t.started = s.started) (h4 : t.fault = s.fault) (h5 : t.prog = s.prog)
    (h6 : t.input = s.input) (h7 : t.inputOpen = s.inputOpen) (h8 : t.output = s.output) : t = s := by
  have ha := hr .a
  have hb := hr .b
  have hc := hr .c
  have hd := hr .d
  have hi := hr .ip
  have hs := hr .sp
  cases s
  cases t
  simp_all

/-! ### `raise` -/

@[simp] theorem raise_a (k : FaultKind) (s : State) : (raise k s).a = s.a := rfl
@[simp] theorem raise_b (k : FaultKind) (s : State) : (raise k s).b = s.b := rfl
@[simp] theorem raise_c (k : FaultKind) (s : State) : (raise k s).c = s.c := rfl
@[simp] theorem raise_d (k : FaultKind) (s : State) : (raise k s).d = s.d := rfl
@[simp] theorem raise_ip (k : FaultKind) (s : State) : (raise k s).ip = s.ip := rfl
@[simp] theorem raise_sp (k : FaultKind) (s : State) : (raise k s).sp = s.sp := rfl
@[simp] theorem raise_stack (k : FaultKind) (s : State) : (raise k s).stack = s.stack := rfl
@[simp] theorem raise_halt (k : FaultKind) (s : State) : (raise k s).halt = s.halt := rfl
@[simp] theorem raise_started (k : FaultKind) (s : State) : (raise k s).started = s.started := rfl
@[simp] theorem raise_fault (k : FaultKind) (s : State) : (raise k s).fault = k.code := rfl
@[simp] theorem raise_prog (k : FaultKind) (s : State) : (raise k s).prog = s.prog := rfl
@[simp] theorem raise_input (k : FaultKind) (s : State) : (raise k s).input = s.input := rfl
@[simp] theorem raise_inputOpen (k : FaultKind) (s : State) : (raise k s).inputOpen = s.inputOpen := rfl
@[simp] theorem raise_output (k : FaultKind) (s : State) : (raise k s).output = s.output := rfl
@[simp] theorem raise_getReg (k : FaultKind) (s : State) (q : Reg) : (raise k s).getReg q = s.getReg q := by cases q <;> rfl

/-! ### `increment` -/

@[simp] theorem increment_a (skip : Bool) (s : State) : (increment skip s).a = s.a := rfl
@[simp] theorem increment_b (skip : Bool) (s : State) : (increment skip s).b = s.b := rfl
@[simp] theorem increment_c (skip : Bool) (s : State) : (increment skip s).c = s.c := rfl
@[simp] theorem increment_d (skip : Bool) (s : State) : (increment skip s).d = s.d := rfl
@[simp] theorem increment_ip (skip : Bool) (s : State) : (increment skip s).ip = s.ip + 1 + (if skip then 1 else 0) := rfl
@[simp] theorem increment_sp (skip : Bool) (s : State) : (increment skip s).sp = s.sp := rfl
@[simp] theorem increment_stack (skip : Bool) (s : State) : (increment skip s).stack = s.stack := rfl
@[simp] theorem increment_halt (skip : Bool) (s : State) : (increment skip s).halt = s.halt := rfl
@[simp] theorem increment_started (skip : Bool) (s : State) : (increment skip s).started = s.started := rfl
@[simp] theorem increment_fault (skip : Bool) (s : State) : (increment skip s).fault = s.fault := rfl
@[simp] theorem increment_prog (skip : Bool) (s : State) : (increment skip s).prog = s.prog := rfl
@[simp] theorem increment_input (skip : Bool) (s : State) : (increment skip s).input = s.input := rfl
@[simp] theorem increment_inputOpen (skip : Bool) (s : State) : (increment skip s).inputOpen = s.inputOpen := rfl
@[simp] theorem increment_output (skip : Bool) (s : State) : (increment skip s).output = s.output := rfl

/-! ### `aimAt` -/

@[simp] theorem aimAt_a (x : Word) (s : State) : (aimAt x s).a = s.a := rfl
@[simp] theorem aimAt_b (x : Word) (s : State) : (aimAt x s).b = s.b := rfl
@[simp] theorem aimAt_c (x : Word) (s : State) : (aimAt x s).c = s.c := rfl
@[simp] theorem aimAt_d (x : Word) (s : State) : (aimAt x s).d = s.d := rfl
@[simp] theorem aimAt_ip (x : Word) (s : State) : (aimAt x s).ip = x - 1 := rfl
@[simp] theorem aimAt_sp (x : Word) (s : State) : (aimAt x s).sp = s.sp := rfl
@[simp] theorem aimAt_stack (x : Word) (s : State) : (aimAt x s).stack = s.stack := rfl
@[simp] theorem aimAt_halt (x : Word) (s : State) : (aimAt x s).halt = s.halt := rfl
@[simp] theorem aimAt_started (x : Word) (s : State) : (aimAt x s).started = s.started := rfl
@[simp] theorem aimAt_fault (x : Word) (s : State) : (aimAt x s).fault = s.fault := rfl
@[simp] theorem aimAt_prog (x : Word) (s : State) : (aimAt x s).prog = s.prog := rfl
@[simp] theorem aimAt_input (x : Word) (s : State) : (aimAt x s).input = s.input := rfl
@[simp] theorem aimAt_inputOpen (x : Word) (s : State) : (aimAt x s).inputOpen = s.inputOpen := rfl
@[simp] theorem aimAt_output (x : Word) (s : State) : (aimAt x s).output = s.output := rfl

/-! ### `outWrite` -/

@[simp] theorem outWrite_a (x : Byte) (s : State) : (outWrite x s).a = s.a := rfl
@[simp] theorem outWrite_b (x : Byte) (s : State) : (outWrite x s).b = s.b := rfl
@[simp] theorem outWrite_c (x : Byte) (s : State) : (outWrite x s).c = s.c := rfl
@[simp] theorem outWrite_d (x : Byte) (s : State) : (outWrite x s).d = s.d := rfl
@[simp] theorem outWrite_ip (x : Byte) (s : State) : (outWrite x s).ip = s.ip := rfl
@[simp] theorem outWrite_sp (x : Byte) (s : State) : (outWrite x s).sp = s.sp := rfl
@[simp] theorem outWrite_stack (x : Byte) (s : State) : (outWrite x s).stack = s.stack := rfl
@[simp] theorem outWrite_halt (x : Byte) (s : State) : (outWrite x s).halt = s.halt := rfl
@[simp] theorem outWrite_started (x : Byte) (s : State) : (outWrite x s).started = s.started := rfl
@[simp] theorem outWrite_fault (x : Byte) (s : State) : (outWrite x s).fault = s.fault := rfl
@[simp] theorem outWrite_prog (x : Byte) (s : State) : (outWrite x s).prog = s.prog := rfl
@[simp] theorem outWrite_input (x : Byte) (s : State) : (outWrite x s).input = s.input := rfl
@[simp] theorem outWrite_inputOpen (x : Byte) (s : State) : (outWrite x s).inputOpen = s.inputOpen := rfl
@[simp] theorem outWrite_output (x : Byte) (s : State) : (outWrite x s).output = s.output ++ [x] := rfl
@[simp] theorem outWrite_getReg (x : Byte) (s : State) (q : Reg) : (outWrite x s).getReg q = s.getReg q := by cases q <;> rfl

/-! ### `placeAtIp` -/

@[simp] theorem placeAtIp_a (w : InstrWord) (s : State) : (placeAtIp w s).a = s.a := rfl
@[simp] theorem placeAtIp_b (w : InstrWord) (s : State) : (placeAtIp w s).b = s.b := rfl
@[simp] theorem placeAtIp_c (w : InstrWord) (s : State) : (placeAtIp w s).c = s.c := rfl
@[simp] theorem placeAtIp_d (w : InstrWord) (s : State) : (placeAtIp w s).d = s.d := rfl
@[simp] theorem placeAtIp_ip (w : InstrWord) (s : State) : (placeAtIp w s).ip = s.ip := rfl
@[simp] theorem placeAtIp_sp (w : InstrWord) (s : State) : (placeAtIp w s).sp = s.sp := rfl
@[simp] theorem placeAtIp_stack (w : InstrWord) (s : State) : (placeAtIp w s).stack = s.stack := rfl
@[simp] theorem placeAtIp_halt (w : InstrWord) (s : State) : (placeAtIp w s).halt = false := rfl
@[simp] theorem placeAtIp_started (w : InstrWord) (s : State) : (placeAtIp w s).started = true := rfl
@[simp] theorem placeAtIp_fault (w : InstrWord) (s : State) : (placeAtIp w s).fault = 0 := rfl
@[simp] theorem placeAtIp_prog (w : InstrWord) (s : State) : (placeAtIp w s).prog = placeWord s.prog s.ip.toNat w := rfl
@[simp] theorem placeAtIp_input (w : InstrWord) (s : State) : (placeAtIp w s).input = s.input := rfl
@[simp] theorem placeAtIp_inputOpen (w : InstrWord) (s : State) : (placeAtIp w s).inputOpen = s.inputOpen := rfl
@[simp] theorem placeAtIp_output (w : InstrWord) (s : State) : (placeAtIp w s).output = s.output := rfl
@[simp] theorem placeAtIp_getReg (w : InstrWord) (s : State) (q : Reg) : (placeAtIp w s).getReg q = s.getReg q := by cases q <;> rfl

/-- The increment changes no register but IP. -/
theorem increment_getReg (skip : Bool) (s : State) (q : Reg) (h : q ≠ .ip) :
    (increment skip s).getReg q = s.getReg q := by
  cases q <;> first | rfl | exact absurd rfl h

/-- Aiming IP changes no other register. -/
theorem aimAt_getReg (x : Word) (s : State) (q : Reg) (h : q ≠ .ip) : (aimAt x s).getReg q = s.getReg q := by
  cases q <;> first | rfl | exact absurd rfl h

/-- A control instruction's write and the increment cancel: the target is exact (R63). -/
@[simp] theorem increment_aimAt_ip (x : Word) (s : State) : (increment false (aimAt x s)).ip = x := by
  simp

/-! ### The phase (R21) -/

theorem phase_running_iff (s : State) :
    s.phase = .running ↔ s.fault = 0 ∧ s.halt = false ∧ s.started = true := by
  unfold State.phase
  by_cases hf : s.fault = 0 <;> cases s.halt <;> cases s.started <;> simp_all

theorem phase_halted_iff (s : State) : s.phase = .halted ↔ s.fault = 0 ∧ s.halt = true := by
  unfold State.phase
  by_cases hf : s.fault = 0 <;> cases s.halt <;> cases s.started <;> simp_all

theorem phase_faulted_iff (s : State) : s.phase = .faulted ↔ s.fault ≠ 0 := by
  unfold State.phase
  by_cases hf : s.fault = 0 <;> cases s.halt <;> cases s.started <;> simp_all

theorem phase_ready_iff (s : State) :
    s.phase = .ready ↔ s.fault = 0 ∧ s.halt = false ∧ s.started = false := by
  unfold State.phase
  by_cases hf : s.fault = 0 <;> cases s.halt <;> cases s.started <;> simp_all

/-- A fault's code is never 0, so raising one leads to phase Faulted. -/
theorem code_ne_zero (k : FaultKind) : k.code ≠ 0 := by cases k <;> decide

/-- Only the codes 1 to 5 are written (R20). -/
theorem code_le_five (k : FaultKind) : k.code.toNat ≤ 5 := by cases k <;> decide

@[simp] theorem raise_phase (k : FaultKind) (s : State) : (raise k s).phase = .faulted := by
  exact (phase_faulted_iff _).2 (code_ne_zero k)

end Sys2Proof.Machine
end

