-- ==== Sys2Proof/Laws/Ops.lean ====
section
/-!
SUPPORT. What each shared operation can do, said once: push and pop, the end of a step, the read transactions of `Inp`,
fetch, and the cases of a step.
-/
namespace Sys2Proof.Machine

/-! ### Push and pop -/

/-- A push succeeds exactly when SP is below 255, and then writes the slot SP and adds 1 to SP (R70). -/
theorem push_ok_iff (v : Word) (s t : State) :
    push v s = .ok t ↔ s.sp.toNat < 255 ∧ t = { s with stack := s.stack.write s.sp.toNat v, sp := s.sp + 1 } := by
  unfold push Config.cap
  split
  · simp only [reduceCtorEq, false_iff]; omega
  · simp only [Except.ok.injEq]
    exact ⟨fun h => ⟨by omega, h.symm⟩, fun h => h.2.symm⟩

/-- A push fails exactly when SP is 255 or more, and only with a stack fault (R70). -/
theorem push_error_iff (v : Word) (s : State) (k : FaultKind) :
    push v s = .error k ↔ 255 ≤ s.sp.toNat ∧ k = .stackFault := by
  unfold push Config.cap
  split
  · simp only [Except.error.injEq]
    exact ⟨fun h => ⟨by omega, h.symm⟩, fun h => h.2.symm⟩
  · simp only [reduceCtorEq, false_iff]; omega

theorem word_ne_zero_iff (x : Word) : x ≠ 0 ↔ 1 ≤ x.toNat := by
  rw [Ne, ← BitVec.toNat_inj]
  change ¬x.toNat = 0 ↔ 1 ≤ x.toNat
  omega

theorem toNat_pred (x : Word) (h : 1 ≤ x.toNat) : (x - 1).toNat = x.toNat - 1 := by
  have := x.isLt
  rw [BitVec.toNat_sub]
  change (2 ^ 64 - 1 + x.toNat) % 2 ^ 64 = x.toNat - 1
  omega

/-- A pop succeeds exactly when SP is 1 to 255; it subtracts 1 from SP, returns the word at the new SP and changes no
slot (R71, R17). -/
theorem pop_ok_iff (s t : State) (v : Word) :
    pop s = .ok (v, t) ↔
      (1 ≤ s.sp.toNat ∧ s.sp.toNat ≤ 255) ∧ v = s.stack.read (s.sp.toNat - 1) ∧ t = { s with sp := s.sp - 1 } := by
  have hz := word_ne_zero_iff s.sp
  unfold pop Config.cap
  split
  · rename_i h
    simp only [reduceCtorEq, false_iff]
    rintro ⟨⟨h1, h2⟩, -⟩
    rcases h with h | h
    · exact (hz.2 h1) h
    · omega
  · rename_i h
    rw [not_or] at h
    have h1 := hz.1 h.1
    have h2 := h.2
    simp only [Except.ok.injEq, Prod.mk.injEq, toNat_pred _ h1]
    exact ⟨fun h => ⟨⟨h1, by omega⟩, h.1.symm, h.2.symm⟩, fun h => ⟨h.2.1.symm, h.2.2.symm⟩⟩

/-- A pop fails exactly when SP is 0 or above 255, and only with a stack fault (R71). -/
theorem pop_error_iff (s : State) (k : FaultKind) :
    pop s = .error k ↔ (s.sp.toNat = 0 ∨ 255 < s.sp.toNat) ∧ k = .stackFault := by
  have hz := word_ne_zero_iff s.sp
  unfold pop Config.cap
  split
  · rename_i h
    simp only [Except.error.injEq]
    refine ⟨fun hk => ⟨?_, hk.symm⟩, fun hk => hk.2.symm⟩
    rcases h with h | h
    · exact .inl (by rw [h]; rfl)
    · exact .inr h
  · rename_i h
    rw [not_or] at h
    have h1 := hz.1 h.1
    simp only [reduceCtorEq, false_iff]
    omega

/-! ### The end of a step -/

@[simp] theorem conclude_ok (s t : State) : conclude s (.ok t) = .next (increment false t) := rfl

@[simp] theorem conclude_error (s : State) (k : FaultKind) : conclude s (.error k) = .next (raise k s) := rfl

/-- A step's end is always a next state: the incremented one, or the old one with the fault's code (R60). -/
theorem conclude_cases (s : State) (e : Except FaultKind State) :
    (∃ t, e = .ok t ∧ conclude s e = .next (increment false t)) ∨
      ∃ k, e = .error k ∧ conclude s e = .next (raise k s) := by
  cases e with
  | ok t => exact .inl ⟨t, rfl, rfl⟩
  | error k => exact .inr ⟨k, rfl, rfl⟩

/-- The common shape of the arithmetic instructions (R77): the value written to the left register, or the fault. -/
theorem binary_eq (f : Word → Word → Except FaultKind Word) (l r : Reg) (s : State) :
    binary f l r s =
      match f (s.getReg l) (s.getReg r) with
      | .ok v => .next (increment false (s.setReg l v))
      | .error k => .next (raise k s) := by
  unfold binary
  cases f (s.getReg l) (s.getReg r) <;> rfl

/-! ### The read transactions of `Inp` (R105, R106) -/

/-- One transaction of the sequence (R106): a carriage return is discarded and the read retried, another byte is kept,
and the other two answers end the sequence. -/
theorem inpSequence_eq (more : Bool) (bs : List Byte) :
    inpSequence more bs =
      match inRead more bs with
      | .byte b left => if b = Config.cr then inpSequence more left else .byte b left
      | .exhausted => .exhausted
      | .noAnswer => .noAnswer := by
  cases bs with
  | nil => cases more <;> rfl
  | cons b left => rfl

/-- Any number of leading carriage returns is discarded. -/
theorem inpSequence_skips (more : Bool) (n : Nat) (bs : List Byte) :
    inpSequence more (List.replicate n Config.cr ++ bs) = inpSequence more bs := by
  induction n with
  | zero => rfl
  | succ n ih => rw [List.replicate_succ, List.cons_append, inpSequence, if_pos rfl, ih]

/-- Every stream is some carriage returns, then nothing or a byte that is kept. -/
theorem inpSequence_cases (more : Bool) (bs : List Byte) :
    (∃ n, bs = List.replicate n Config.cr ∧ inpSequence more bs = if more then .noAnswer else .exhausted) ∨
      ∃ n b left, bs = List.replicate n Config.cr ++ b :: left ∧ b ≠ Config.cr ∧
        inpSequence more bs = .byte b left := by
  induction bs with
  | nil => exact .inl ⟨0, rfl, rfl⟩
  | cons b left ih =>
    by_cases hb : b = Config.cr
    · subst hb
      rcases ih with ⟨n, h1, h2⟩ | ⟨n, b', left', h1, h2, h3⟩
      · exact .inl ⟨n + 1, by rw [h1, List.replicate_succ], by rw [inpSequence, if_pos rfl, h2]⟩
      · exact .inr ⟨n + 1, b', left', by rw [h1, List.replicate_succ]; rfl, h2, by rw [inpSequence, if_pos rfl, h3]⟩
    · exact .inr ⟨0, b, left, rfl, hb, by rw [inpSequence, if_neg hb]⟩

/-! ### Fetch and step -/

theorem fetch_ok_iff (s : State) (w : InstrWord) : fetch s = .ok w ↔ s.prog[s.ip.toNat]? = some w := by
  unfold fetch
  cases s.prog[s.ip.toNat]? <;> simp

/-- The fetch fails exactly when `IP >= N`, and only with `InvalidAddress` (R61). -/
theorem fetch_error_iff (s : State) (k : FaultKind) :
    fetch s = .error k ↔ s.prog.length ≤ s.ip.toNat ∧ k = .invalidAddress := by
  unfold fetch
  rw [← List.getElem?_eq_none_iff]
  cases s.prog[s.ip.toNat]? <;> simp [eq_comm]

/-- The cases of a step: none outside Running; else a fault of fetch, a fault of decode, or the decoded instruction
(R60). -/
theorem step_cases (s : State) :
    (s.phase ≠ .running ∧ step s = .next s) ∨
      (s.phase = .running ∧ s.prog.length ≤ s.ip.toNat ∧ step s = .next (raise .invalidAddress s)) ∨
      (s.phase = .running ∧ ∃ w, s.prog[s.ip.toNat]? = some w ∧
        ((∃ e, decode w = .error e ∧ step s = .next (raise .illegalInstruction s)) ∨
          ∃ i, decode w = .ok i ∧ step s = exec i s)) := by
  cases hp : s.phase
  case running =>
    right
    cases hw : s.prog[s.ip.toNat]? with
    | none =>
      left
      exact ⟨rfl, List.getElem?_eq_none_iff.1 hw, by simp [step, hp, fetchInstr, fetch, hw]⟩
    | some w =>
      right
      refine ⟨rfl, w, rfl, ?_⟩
      cases hd : decode w with
      | error e => exact .inl ⟨e, rfl, by simp [step, hp, fetchInstr, fetch, hw, hd]⟩
      | ok i => exact .inr ⟨i, rfl, by simp [step, hp, fetchInstr, fetch, hw, hd]⟩
  all_goals exact .inl ⟨by simp, by simp [step, hp, noStep]⟩

/-- The word placed at IP is the word the next fetch reads. -/
theorem fetch_placeAtIp (w : InstrWord) (s : State) : fetch (placeAtIp w s) = .ok w := by
  rw [fetch_ok_iff, placeAtIp_prog, placeAtIp_ip, placeWord]
  rw [List.getElem?_append_right (by simp; omega)]
  simp only [List.length_append, List.length_take, List.length_replicate]
  rw [show s.ip.toNat - (min s.ip.toNat s.prog.length + (s.ip.toNat - s.prog.length)) = 0 by omega]
  rfl

/-- After placing a word, the machine is Running. -/
theorem placeAtIp_phase (w : InstrWord) (s : State) : (placeAtIp w s).phase = .running :=
  (phase_running_iff _).2 ⟨rfl, rfl, rfl⟩

end Sys2Proof.Machine
end

