-- ==== Sys2Proof/Laws/Exec.lean ====
section
/-!
SUPPORT. Everything an instruction can do, said once (`exec_cases`), and the frames that follow: what no instruction
changes, and what only one kind changes.
-/
namespace Sys2Proof.Machine

/-- The end of an instruction that aims IP at `x`: only IP changes, to `x` (R63). -/
theorem increment_aimAt (x : Word) (s : State) : increment false (aimAt x s) = { s with ip := x } := by
  simp [increment, aimAt]

theorem map_ok_cases {α β : Type} (f : α → β) (e : Except FaultKind α) (y : β) (h : e.map f = .ok y) :
    ∃ x, e = .ok x ∧ y = f x := by
  cases e with
  | ok x => cases h; exact ⟨x, rfl, rfl⟩
  | error k => cases h

theorem map_error_cases {α β : Type} (f : α → β) (e : Except FaultKind α) (k : FaultKind) (h : e.map f = .error k) :
    e = .error k := by
  cases e with
  | ok x => cases h
  | error k' => cases h; rfl

theorem conclude_next_cases (s t : State) (e : Except FaultKind State) (h : conclude s e = .next t) :
    (∃ u, e = .ok u ∧ t = increment false u) ∨ ∃ k, e = .error k ∧ t = raise k s := by
  cases e with
  | ok u => cases h; exact .inl ⟨u, rfl, rfl⟩
  | error k => cases h; exact .inr ⟨k, rfl, rfl⟩

theorem binary_next_cases (f : Word → Word → Except FaultKind Word) (l r : Reg) (s t : State)
    (h : binary f l r s = .next t) :
    (∃ v, f (s.getReg l) (s.getReg r) = .ok v ∧ t = increment false (s.setReg l v)) ∨
      ∃ k, f (s.getReg l) (s.getReg r) = .error k ∧ t = raise k s := by
  rw [binary_eq] at h
  split at h <;> cases h
  · exact .inl ⟨_, by assumption, rfl⟩
  · exact .inr ⟨_, by assumption, rfl⟩

/-- The instructions that use the stack (R117). -/
def usesStack (i : Instr) : Prop :=
  (∃ v, i = .pushI v) ∨ (∃ r, i = .pushR r) ∨ (∃ r, i = .pop r) ∨ (∃ x, i = .call x) ∨ i = .ret

/-- The instructions that can raise an arithmetic fault (R118). -/
def mayFaultArithmetic (i : Instr) : Prop :=
  (∃ l r, i = .div l r) ∨ (∃ l r, i = .shl l r) ∨ ∃ l r, i = .shr l r

/-- The next states an instruction can answer, by what changed. -/
inductive ExecCase (i : Instr) (s : State) : State → Prop
  /-- One result, in the register `r`, an operand. -/
  | register (r : Reg) (v : Word) (hr : r ∈ i.operands) : ExecCase i s (increment false (s.setReg r v))
  /-- A word pushed, and IP moved. -/
  | pushed (v x : Word) (h : s.sp.toNat < 255) (hi : usesStack i) :
      ExecCase i s { s with stack := s.stack.write s.sp.toNat v, sp := s.sp + 1, ip := x }
  /-- A word popped into the register `r`, an operand. -/
  | popped (r : Reg) (v : Word) (hr : r ∈ i.operands) (hi : usesStack i) :
      ExecCase i s (increment false (State.setReg { s with sp := s.sp - 1 } r v))
  /-- A word popped into IP. -/
  | returned (v : Word) (hi : usesStack i) : ExecCase i s { s with sp := s.sp - 1, ip := v }
  /-- Only IP moved. -/
  | moved (x : Word) : ExecCase i s { s with ip := x }
  /-- A byte of input accepted into the register `r`, an operand. -/
  | accepted (r : Reg) (n : Nat) (b : Byte) (left : List Byte) (hi : i = .inp r)
      (hs : s.input = List.replicate n Config.cr ++ b :: left) (hb : b ≠ Config.cr) :
      ExecCase i s (increment false (State.setReg { s with input := left } r (zext64 b)))
  /-- A byte of output written. -/
  | printed (r : Reg) (hi : i = .print r) : ExecCase i s (increment false (outWrite (lowByte (s.getReg r)) s))
  /-- The halt flag set. -/
  | halted (hi : i = .halt) : ExecCase i s { s with halt := true }
  /-- A stack fault. -/
  | stackFault (hi : usesStack i) : ExecCase i s (raise .stackFault s)
  /-- An arithmetic fault. -/
  | arithmeticFault (hi : mayFaultArithmetic i) : ExecCase i s (raise .arithmeticFault s)
  /-- The input exhausted. -/
  | inputExhausted (r : Reg) (hi : i = .inp r) (n : Nat) (hs : s.input = List.replicate n Config.cr)
      (ho : s.inputOpen = false) : ExecCase i s (raise .inputExhausted { s with input := [] })

theorem push_next_case (i : Instr) (v : Word) (s t : State) (hi : usesStack i) (h : conclude s (push v s) = .next t) :
    ExecCase i s t := by
  rcases conclude_next_cases _ _ _ h with ⟨u, h1, rfl⟩ | ⟨k, h1, rfl⟩
  · obtain ⟨h2, rfl⟩ := (push_ok_iff _ _ _).1 h1
    simpa [increment] using ExecCase.pushed (i := i) v (s.ip + 1) h2 hi
  · rw [((push_error_iff _ _ _).1 h1).2]
    exact .stackFault hi

theorem binary_next_case (i : Instr) (f : Word → Word → Except FaultKind Word) (l r : Reg) (s t : State)
    (hl : l ∈ i.operands) (hf : ∀ x y k, f x y = .error k → k = .arithmeticFault ∧ mayFaultArithmetic i)
    (h : binary f l r s = .next t) : ExecCase i s t := by
  rcases binary_next_cases f l r s t h with ⟨v, -, rfl⟩ | ⟨k, h1, rfl⟩
  · exact .register l v hl
  · obtain ⟨rfl, h2⟩ := hf _ _ _ h1
    exact .arithmeticFault h2

theorem shift_error (f : Word → Word → Word) (x y : Word) (k : FaultKind)
    (h : (if Config.wordBits ≤ y.toNat then Except.error FaultKind.arithmeticFault else .ok (f x y)) = .error k) :
    k = .arithmeticFault := by
  split at h <;> cases h
  rfl

/-- What an instruction can do: if it answers a next state, that state is one of the cases. -/
theorem exec_cases (i : Instr) (s t : State) (h : exec i s = .next t) : ExecCase i s t := by
  cases i with
  | pushI v => exact push_next_case _ _ _ _ (.inl ⟨v, rfl⟩) h
  | pushR r => exact push_next_case _ _ _ _ (.inr (.inl ⟨r, rfl⟩)) h
  | pop r =>
    have hi : usesStack (.pop r) := .inr (.inr (.inl ⟨r, rfl⟩))
    rcases conclude_next_cases _ _ _ h with ⟨u, h1, rfl⟩ | ⟨k, h1, rfl⟩
    · obtain ⟨⟨v, u⟩, h2, rfl⟩ := map_ok_cases _ _ _ h1
      obtain ⟨-, rfl, rfl⟩ := (pop_ok_iff _ _ _).1 h2
      exact .popped _ _ (by simp [Instr.operands]) hi
    · rw [((pop_error_iff _ _).1 (map_error_cases _ _ _ h1)).2]
      exact .stackFault hi
  | add l r => exact binary_next_case _ aluAdd l r s t (by simp [Instr.operands]) (fun _ _ _ e => by cases e) h
  | sub l r => exact binary_next_case _ aluSub l r s t (by simp [Instr.operands]) (fun _ _ _ e => by cases e) h
  | mul l r => exact binary_next_case _ aluMul l r s t (by simp [Instr.operands]) (fun _ _ _ e => by cases e) h
  | div l r =>
    refine binary_next_case _ aluDiv l r s t (by simp [Instr.operands]) (fun x y k e => ?_) h
    unfold aluDiv at e
    split at e <;> cases e
    exact ⟨rfl, .inl ⟨l, r, rfl⟩⟩
  | xor l r => exact binary_next_case _ aluXor l r s t (by simp [Instr.operands]) (fun _ _ _ e => by cases e) h
  | and l r => exact binary_next_case _ aluAnd l r s t (by simp [Instr.operands]) (fun _ _ _ e => by cases e) h
  | or l r => exact binary_next_case _ aluOr l r s t (by simp [Instr.operands]) (fun _ _ _ e => by cases e) h
  | shl l r =>
    exact binary_next_case _ aluShl l r s t (by simp [Instr.operands])
      (fun x y k e => ⟨shift_error (fun x y => x <<< y.toNat) x y k e, .inr (.inl ⟨l, r, rfl⟩)⟩) h
  | shr l r =>
    exact binary_next_case _ aluShr l r s t (by simp [Instr.operands])
      (fun x y k e => ⟨shift_error (fun x y => x >>> y.toNat) x y k e, .inr (.inr ⟨l, r, rfl⟩)⟩) h
  | inp r =>
    simp only [exec, execInp] at h
    rcases inpSequence_cases s.inputOpen s.input with ⟨n, h1, h2⟩ | ⟨n, b, left, h1, h2, h3⟩
    · rw [h2] at h
      by_cases ho : s.inputOpen = true
      · rw [if_pos ho] at h
        cases h
      · rw [if_neg ho] at h
        cases h
        exact .inputExhausted r rfl n h1 (by simpa using ho)
    · rw [h3] at h
      cases h
      exact .accepted r n b left rfl h1 h2
  | eq l r => cases h; exact .moved _
  | gt l r => cases h; exact .moved _
  | lt l r => cases h; exact .moved _
  | jmp x => cases h; rw [increment_aimAt]; exact .moved _
  | jmpRel x => cases h; rw [increment_aimAt]; exact .moved _
  | call x =>
    have hi : usesStack (.call x) := .inr (.inr (.inr (.inl ⟨x, rfl⟩)))
    rcases conclude_next_cases _ _ _ h with ⟨u, h1, rfl⟩ | ⟨k, h1, rfl⟩
    · obtain ⟨u, h2, rfl⟩ := map_ok_cases _ _ _ h1
      obtain ⟨h3, rfl⟩ := (push_ok_iff _ _ _).1 h2
      rw [increment_aimAt]
      exact .pushed _ _ h3 hi
    · rw [((push_error_iff _ _ _).1 (map_error_cases _ _ _ h1)).2]
      exact .stackFault hi
  | ret =>
    have hi : usesStack .ret := .inr (.inr (.inr (.inr rfl)))
    rcases conclude_next_cases _ _ _ h with ⟨u, h1, rfl⟩ | ⟨k, h1, rfl⟩
    · obtain ⟨⟨v, u⟩, h2, rfl⟩ := map_ok_cases _ _ _ h1
      obtain ⟨-, rfl, rfl⟩ := (pop_ok_iff _ _ _).1 h2
      rw [increment_aimAt]
      exact .returned _ hi
    · rw [((pop_error_iff _ _).1 (map_error_cases _ _ _ h1)).2]
      exact .stackFault hi
  | print r => cases h; exact .printed r rfl
  | halt => cases h; exact .halted rfl

/-- What happens outside the next states: only an `Inp` whose channel has delivered nothing but carriage returns and has
not answered since has none, and nothing is refused (R107). -/
theorem exec_total (i : Instr) (s : State) :
    (∃ t, exec i s = .next t) ∨
      ((∃ r, i = .inp r) ∧ s.inputOpen = true ∧ s.input = List.replicate s.input.length Config.cr ∧
        exec i s = .fault (.inputNotAnswered s.input.length)) := by
  have hc : ∀ e, ∃ t, conclude s e = .next t := fun e => by cases e <;> exact ⟨_, rfl⟩
  cases i with
  | inp r =>
    rcases inpSequence_cases s.inputOpen s.input with ⟨n, h1, h2⟩ | ⟨n, b, left, -, -, h3⟩
    · by_cases ho : s.inputOpen = true
      · rw [if_pos ho] at h2
        exact .inr ⟨⟨r, rfl⟩, ho, by rw [h1, List.length_replicate], by simp only [exec, execInp, h2]⟩
      · rw [if_neg ho] at h2
        exact .inl ⟨_, by simp only [exec, execInp, h2]; rfl⟩
    · exact .inl ⟨_, by simp only [exec, execInp, h3]; rfl⟩
  | _ =>
    left
    first
    | exact hc _
    | exact ⟨_, rfl⟩

end Sys2Proof.Machine
end

