-- ==== Sys2Proof/Laws/HostPort.lean ====
section
/-!
SUPPORT. What the host's moves can do (R26, R141), and what the channel's moves leave.
-/
namespace Sys2Proof.Machine

/-- The host resets exactly outside phase Running, and to the constructed machine (R135, log entry 11). -/
theorem hostReset_eq_some_iff (prog : List InstrWord) (s t : State) :
    hostReset prog s = some t ↔ s.phase ≠ .running ∧ t = State.resetWith prog s.input s.inputOpen := by
  unfold hostReset
  cases s.phase <;> simp [eq_comm]

/-- The host's `run` sets `started` in Ready and has no effect elsewhere (R26). -/
theorem hostRun_eq (s : State) : hostRun s = if s.phase = .ready then { s with started := true } else s := by
  unfold hostRun
  cases s.phase <;> simp

/-- An observation is given exactly outside phase Running, and its flags are the state's (R26, log entry 10). -/
theorem hostObserve_eq_some (s : State) (o : Observation) (h : hostObserve s = some o) :
    s.phase ≠ .running ∧ o.halt = s.halt ∧ o.fault = s.fault ∧ o.phase = s.phase := by
  unfold hostObserve at h
  cases hp : s.phase <;> rw [hp] at h <;> cases h <;> exact ⟨by decide, rfl, rfl, rfl⟩

/-- Bytes delivered to an open channel come after those it has (R24). -/
theorem channelDeliver_open (bytes : List Byte) (s : State) (h : s.inputOpen = true) :
    channelDeliver bytes s = { s with input := s.input ++ bytes } := if_pos h

end Sys2Proof.Machine
end

