-- ==== Sys2Proof/Laws/PerInstr.lean ====
section
/-!
SUPPORT. The family `EncodesWellFormed`: the word of every instruction fits a row of the opcode table (R49, R51), one
lemma per constructor of `Instr`.
-/
namespace Sys2Proof

/-- Masking works field by field. -/
theorem packWord_and (op op' : BitVec 8) (l l' r r' : BitVec 4) (imm imm' : Word) :
    packWord op l r imm &&& packWord op' l' r' imm' = packWord (op &&& op') (l &&& l') (r &&& r') (imm &&& imm') := by
  apply BitVec.eq_of_getLsbD_eq
  intro i hi
  simp only [packWord, BitVec.getLsbD_and, BitVec.getLsbD_append]
  grind

/-- A word fits the table when it fits one of its rows. -/
theorem wellFormedWord_of_mem (row : OpcodeRow) (w : InstrWord) (hm : row ∈ opcodeTable) (hf : row.fits w = true) :
    wellFormedWord w = true :=
  List.any_eq_true.2 ⟨row, hm, hf⟩

/-- Bits 71:68 as the opcode table reads them are the field `l`. -/
theorem packWord_bitsL (op : BitVec 8) (l r : BitVec 4) (imm : Word) :
    packWord op l r imm >>> 68 &&& 0xF = l.setWidth 80 := by
  have h : (0xF : InstrWord) = (BitVec.allOnes 4).setWidth 80 := by decide
  apply BitVec.eq_of_getLsbD_eq
  intro i hi
  simp only [h, packWord, BitVec.getLsbD_and, BitVec.getLsbD_append, BitVec.getLsbD_ushiftRight,
    BitVec.getLsbD_setWidth, BitVec.getLsbD_allOnes]
  grind

/-- Bits 67:64 as the opcode table reads them are the field `r`. -/
theorem packWord_bitsR (op : BitVec 8) (l r : BitVec 4) (imm : Word) :
    packWord op l r imm >>> 64 &&& 0xF = r.setWidth 80 := by
  have h : (0xF : InstrWord) = (BitVec.allOnes 4).setWidth 80 := by decide
  apply BitVec.eq_of_getLsbD_eq
  intro i hi
  simp only [h, packWord, BitVec.getLsbD_and, BitVec.getLsbD_append, BitVec.getLsbD_ushiftRight,
    BitVec.getLsbD_setWidth, BitVec.getLsbD_allOnes]
  grind

/-- The register check of a row reads the two register fields (R55). -/
theorem registersNamed_packWord (row : OpcodeRow) (op : BitVec 8) (l r : BitVec 4) (imm : Word) :
    row.registersNamed (packWord op l r imm) =
      ((!row.regL || decide (l.toNat ≤ 5)) && (!row.regR || decide (r.toNat ≤ 5))) := by
  have hl : (l.setWidth 80).toNat = l.toNat := by simp; omega
  have hr : (r.setWidth 80).toNat = r.toNat := by simp; omega
  rw [OpcodeRow.registersNamed, packWord_bitsL, packWord_bitsR, hl, hr]

theorem regNumber_le (r : Reg) : (regNumber r).toNat ≤ 5 := by cases r <;> decide

theorem and_ones8 (op : BitVec 8) : op &&& 0xFF = op := by
  rw [show (0xFF : BitVec 8) = BitVec.allOnes 8 from rfl, BitVec.and_allOnes]

/-- A word with zero register fields fits its row of format I, whatever the immediate. -/
theorem formI_fits (m : String) (op : BitVec 8) (imm : Word) :
    (OpcodeRow.formI m (packWord op 0 0 0)).fits (packWord op 0 0 imm) = true := by
  have hmask : (0xFFFF0000000000000000 : InstrWord) = packWord 0xFF 0xF 0xF 0 := by decide
  rw [OpcodeRow.fits, registersNamed_packWord]
  simp only [OpcodeRow.formI, OpcodeRow.bitsMatch, hmask, packWord_and, and_ones8]
  simp

/-- A word with one register in `l` and zeros below fits its row of format R. -/
theorem formR_fits (m : String) (op : BitVec 8) (r : Reg) :
    (OpcodeRow.formR m (packWord op 0 0 0)).fits (packWord op (regNumber r) 0 0) = true := by
  have hmask : (0xFF0FFFFFFFFFFFFFFFFF : InstrWord) = packWord 0xFF 0 0xF 0xFFFFFFFFFFFFFFFF := by decide
  rw [OpcodeRow.fits, registersNamed_packWord]
  simp only [OpcodeRow.formR, OpcodeRow.bitsMatch, hmask, packWord_and, and_ones8]
  simp [regNumber_le]

/-- A word with two registers and a zero immediate fits its row of format RR. -/
theorem formRR_fits (m : String) (op : BitVec 8) (l r : Reg) :
    (OpcodeRow.formRR m (packWord op 0 0 0)).fits (packWord op (regNumber l) (regNumber r) 0) = true := by
  have hmask : (0xFF00FFFFFFFFFFFFFFFF : InstrWord) = packWord 0xFF 0 0 0xFFFFFFFFFFFFFFFF := by decide
  rw [OpcodeRow.fits, registersNamed_packWord]
  simp only [OpcodeRow.formRR, OpcodeRow.bitsMatch, hmask, packWord_and, and_ones8]
  simp [regNumber_le]

namespace Laws

/-- The word of the instruction is a valid word of the opcode table. -/
def EncodesWellFormed.Statement (i : Instr) : Prop := wellFormedWord (encode i) = true

theorem EncodesWellFormed.pushI (x : Word) : EncodesWellFormed.Statement (.pushI x) :=
  wellFormedWord_of_mem (.formI "PushI" (packWord 0x00 0 0 0)) _ (by decide) (formI_fits _ _ _)

theorem EncodesWellFormed.pushR (r : Reg) : EncodesWellFormed.Statement (.pushR r) :=
  wellFormedWord_of_mem (.formR "PushR" (packWord 0x01 0 0 0)) _ (by decide) (formR_fits _ _ _)

theorem EncodesWellFormed.pop (r : Reg) : EncodesWellFormed.Statement (.pop r) :=
  wellFormedWord_of_mem (.formR "Pop" (packWord 0x02 0 0 0)) _ (by decide) (formR_fits _ _ _)

theorem EncodesWellFormed.add (l r : Reg) : EncodesWellFormed.Statement (.add l r) :=
  wellFormedWord_of_mem (.formRR "Add" (packWord 0x03 0 0 0)) _ (by decide) (formRR_fits _ _ _ _)

theorem EncodesWellFormed.sub (l r : Reg) : EncodesWellFormed.Statement (.sub l r) :=
  wellFormedWord_of_mem (.formRR "Sub" (packWord 0x04 0 0 0)) _ (by decide) (formRR_fits _ _ _ _)

theorem EncodesWellFormed.mul (l r : Reg) : EncodesWellFormed.Statement (.mul l r) :=
  wellFormedWord_of_mem (.formRR "Mul" (packWord 0x05 0 0 0)) _ (by decide) (formRR_fits _ _ _ _)

theorem EncodesWellFormed.div (l r : Reg) : EncodesWellFormed.Statement (.div l r) :=
  wellFormedWord_of_mem (.formRR "Div" (packWord 0x06 0 0 0)) _ (by decide) (formRR_fits _ _ _ _)

theorem EncodesWellFormed.xor (l r : Reg) : EncodesWellFormed.Statement (.xor l r) :=
  wellFormedWord_of_mem (.formRR "Xor" (packWord 0x07 0 0 0)) _ (by decide) (formRR_fits _ _ _ _)

theorem EncodesWellFormed.and (l r : Reg) : EncodesWellFormed.Statement (.and l r) :=
  wellFormedWord_of_mem (.formRR "And" (packWord 0x08 0 0 0)) _ (by decide) (formRR_fits _ _ _ _)

theorem EncodesWellFormed.or (l r : Reg) : EncodesWellFormed.Statement (.or l r) :=
  wellFormedWord_of_mem (.formRR "Or" (packWord 0x09 0 0 0)) _ (by decide) (formRR_fits _ _ _ _)

theorem EncodesWellFormed.shl (l r : Reg) : EncodesWellFormed.Statement (.shl l r) :=
  wellFormedWord_of_mem (.formRR "Shl" (packWord 0x0A 0 0 0)) _ (by decide) (formRR_fits _ _ _ _)

theorem EncodesWellFormed.shr (l r : Reg) : EncodesWellFormed.Statement (.shr l r) :=
  wellFormedWord_of_mem (.formRR "Shr" (packWord 0x0B 0 0 0)) _ (by decide) (formRR_fits _ _ _ _)

theorem EncodesWellFormed.inp (r : Reg) : EncodesWellFormed.Statement (.inp r) :=
  wellFormedWord_of_mem (.formR "Inp" (packWord 0x0C 0 0 0)) _ (by decide) (formR_fits _ _ _)

theorem EncodesWellFormed.eq (l r : Reg) : EncodesWellFormed.Statement (.eq l r) :=
  wellFormedWord_of_mem (.formRR "Eq" (packWord 0x0D 0 0 0)) _ (by decide) (formRR_fits _ _ _ _)

theorem EncodesWellFormed.gt (l r : Reg) : EncodesWellFormed.Statement (.gt l r) :=
  wellFormedWord_of_mem (.formRR "Gt" (packWord 0x0E 0 0 0)) _ (by decide) (formRR_fits _ _ _ _)

theorem EncodesWellFormed.lt (l r : Reg) : EncodesWellFormed.Statement (.lt l r) :=
  wellFormedWord_of_mem (.formRR "Lt" (packWord 0x0F 0 0 0)) _ (by decide) (formRR_fits _ _ _ _)

theorem EncodesWellFormed.jmp (x : Word) : EncodesWellFormed.Statement (.jmp x) :=
  wellFormedWord_of_mem (.formI "Jmp" (packWord 0x10 0 0 0)) _ (by decide) (formI_fits _ _ _)

theorem EncodesWellFormed.jmpRel (x : Word) : EncodesWellFormed.Statement (.jmpRel x) :=
  wellFormedWord_of_mem (.formI "JmpRel" (packWord 0x11 0 0 0)) _ (by decide) (formI_fits _ _ _)

theorem EncodesWellFormed.call (x : Word) : EncodesWellFormed.Statement (.call x) :=
  wellFormedWord_of_mem (.formI "Call" (packWord 0x12 0 0 0)) _ (by decide) (formI_fits _ _ _)

theorem EncodesWellFormed.ret : EncodesWellFormed.Statement .ret :=
  wellFormedWord_of_mem (.formN "Ret" (packWord 0x13 0 0 0)) _ (by decide) (by decide)

theorem EncodesWellFormed.print (r : Reg) : EncodesWellFormed.Statement (.print r) :=
  wellFormedWord_of_mem (.formR "Print" (packWord 0x14 0 0 0)) _ (by decide) (formR_fits _ _ _)

theorem EncodesWellFormed.halt : EncodesWellFormed.Statement .halt :=
  wellFormedWord_of_mem (.formN "Halt" (packWord 0x15 0 0 0)) _ (by decide) (by decide)

end Laws

end Sys2Proof
end

