-- ==== Sys2Proof/Laws/Run.lean ====
section
/-!
SUPPORT. Runs of several steps (`core.run`): one step more, and the induction over a run, packaged once.
-/
namespace Sys2Proof.Machine

theorem run_succ_of_next (M : Host.Core) (k : Nat) (s t : M.State) (h : M.step s = .next t) :
    M.run (k + 1) s = M.run k t := by
  rw [Host.Core.run, h]

/-- A run whose first step answers a next state goes on from it. -/
theorem core_run_next (k : Nat) (s t : State) (h : step s = .next t) :
    Sys2Proof.core.run (k + 1) s = Sys2Proof.core.run k t :=
  run_succ_of_next Sys2Proof.core k s t h

theorem run_succ_cases (M : Host.Core) (k : Nat) (s t : M.State) (h : M.run (k + 1) s = .next t) :
    ∃ u, M.step s = .next u ∧ M.run k u = .next t := by
  rw [Host.Core.run] at h
  cases hs : M.step s with
  | next u => rw [hs] at h; exact ⟨u, rfl, h⟩
  | fault r => rw [hs] at h; cases h
  | refused r => rw [hs] at h; cases h

/-- A run that answers a next state does so through the next state of its first step. -/
theorem core_run_cases (k : Nat) (s t : State) (h : Sys2Proof.core.run (k + 1) s = .next t) :
    ∃ u, step s = .next u ∧ Sys2Proof.core.run k u = .next t :=
  run_succ_cases Sys2Proof.core k s t h

/-- A run of `k` steps and then `j` more. -/
theorem core_run_add (k j : Nat) (s t : State) (h : Sys2Proof.core.run k s = .next t) :
    Sys2Proof.core.run (k + j) s = Sys2Proof.core.run j t := by
  induction k generalizing s with
  | zero =>
    cases h
    rw [Nat.zero_add]
  | succ k ih =>
    obtain ⟨u, h1, h2⟩ := core_run_cases k s t h
    rw [show k + 1 + j = k + j + 1 by omega, core_run_next _ _ _ h1]
    exact ih u h2

/-- A relation that holds between a state and itself, and that a step followed by it gives again, holds along every
run. -/
theorem run_induction (R : State → State → Prop) (hrefl : ∀ s, R s s)
    (hstep : ∀ s u t, step s = .next u → R u t → R s t) (k : Nat) (s t : State)
    (h : Sys2Proof.core.run k s = .next t) : R s t := by
  induction k generalizing s with
  | zero =>
    cases h
    exact hrefl _
  | succ k ih =>
    obtain ⟨u, h1, h2⟩ := core_run_cases k s t h
    exact hstep s u t h1 (ih u h2)

end Sys2Proof.Machine
end

