-- ==== Sys2Proof/Tests/Slice0.lean ====
section
/-!
SUPPORT. Tests of the model and witnesses for the hypotheses of the statements. The words and the expected results are
those of spec/95_test_vectors.md, whose ids (E, X, V, S, F) the comments name; nothing expected here was computed by the
model.
-/
namespace Sys2Proof.Tests

open Sys2Proof Sys2Proof.Machine

/-! ### The words of instructions (part B) -/

theorem test_decode_pushI : decode 0x0000123456789ABCDEF0 = .ok (.pushI 0x123456789ABCDEF0) := by rfl  -- E1
theorem test_decode_pushR : decode 0x01200000000000000000 = .ok (.pushR .c) := by rfl  -- E2
theorem test_decode_pop : decode 0x02500000000000000000 = .ok (.pop .sp) := by rfl  -- E3
theorem test_decode_add : decode 0x03010000000000000000 = .ok (.add .a .b) := by rfl  -- E4
theorem test_decode_sub : decode 0x04100000000000000000 = .ok (.sub .b .a) := by rfl  -- E5
theorem test_decode_mul : decode 0x05230000000000000000 = .ok (.mul .c .d) := by rfl  -- E6
theorem test_decode_div : decode 0x06320000000000000000 = .ok (.div .d .c) := by rfl  -- E7
theorem test_decode_xor : decode 0x07000000000000000000 = .ok (.xor .a .a) := by rfl  -- E8
theorem test_decode_and : decode 0x08450000000000000000 = .ok (.and .ip .sp) := by rfl  -- E9
theorem test_decode_or : decode 0x09540000000000000000 = .ok (.or .sp .ip) := by rfl  -- E10
theorem test_decode_shl : decode 0x0A030000000000000000 = .ok (.shl .a .d) := by rfl  -- E11
theorem test_decode_shr : decode 0x0B300000000000000000 = .ok (.shr .d .a) := by rfl  -- E12
theorem test_decode_inp : decode 0x0C100000000000000000 = .ok (.inp .b) := by rfl  -- E13
theorem test_decode_eq : decode 0x0D010000000000000000 = .ok (.eq .a .b) := by rfl  -- E14
theorem test_decode_gt : decode 0x0E230000000000000000 = .ok (.gt .c .d) := by rfl  -- E15
theorem test_decode_lt : decode 0x0F500000000000000000 = .ok (.lt .sp .a) := by rfl  -- E16
theorem test_decode_jmp : decode 0x10000000000000000007 = .ok (.jmp 7) := by rfl  -- E17
theorem test_decode_jmpRel : decode 0x1100FFFFFFFFFFFFFFFE = .ok (.jmpRel 0xFFFFFFFFFFFFFFFE) := by rfl  -- E18
theorem test_decode_call : decode 0x12000000000000000100 = .ok (.call 0x100) := by rfl  -- E19
theorem test_decode_ret : decode 0x13000000000000000000 = .ok .ret := by rfl  -- E20
theorem test_decode_print : decode 0x14300000000000000000 = .ok (.print .d) := by rfl  -- E21
theorem test_decode_halt : decode 0x15000000000000000000 = .ok .halt := by rfl  -- E22

/-- E1, E3, E9, E18 and E22 the other way. -/
theorem test_encode : encode (.pushI 0x123456789ABCDEF0) = 0x0000123456789ABCDEF0 ∧
    encode (.pop .sp) = 0x02500000000000000000 ∧ encode (.and .ip .sp) = 0x08450000000000000000 ∧
    encode (.jmpRel 0xFFFFFFFFFFFFFFFE) = 0x1100FFFFFFFFFFFFFFFE ∧ encode .halt = 0x15000000000000000000 := by
  decide

/-- E17 and E21 as the host writes them. -/
theorem test_decodeTableWord : decodeTableWord 80 0x10000000000000000007 = some (.jmp 7) ∧
    decodeTableWord 80 0x14300000000000000000 = some (.print .d) := by decide

/-! ### Words that are no instruction (part B, second table): refused by the decoder by name -/

theorem test_reject_reserved : decode 0x16000000000000000000 = .error .reservedOpcode ∧  -- X1
    decode 0xFF000000000000000123 = .error .reservedOpcode := ⟨rfl, rfl⟩  -- X2

theorem test_reject_unusedField : decode 0x15000000000000000001 = .error .unusedField ∧  -- X3
    decode 0x13100000000000000000 = .error .unusedField ∧  -- X4
    decode 0x00100000000000000005 = .error .unusedField ∧  -- X5
    decode 0x10020000000000000007 = .error .unusedField ∧  -- X6
    decode 0x02010000000000000000 = .error .unusedField ∧  -- X7
    decode 0x14000000000000000001 = .error .unusedField ∧  -- X8
    decode 0x03010000000000000001 = .error .unusedField := ⟨rfl, rfl, rfl, rfl, rfl, rfl, rfl⟩  -- X9

theorem test_reject_noSuchRegister : decode 0x02600000000000000000 = .error .noSuchRegister ∧  -- X10
    decode 0x030F0000000000000000 = .error .noSuchRegister ∧  -- X11
    decode 0x0D650000000000000000 = .error .noSuchRegister := ⟨rfl, rfl, rfl⟩  -- X12

/-! ### WellFormed: one ill-formed term for each check -/

/-- The check of the masked bits refuses X1 (opcode) and X3, X5, X7, X9 (a field the format does not use). -/
theorem test_wellFormed_bits : wellFormedWord 0x16000000000000000000 = false ∧
    wellFormedWord 0x15000000000000000001 = false ∧ wellFormedWord 0x00100000000000000005 = false ∧
    wellFormedWord 0x02010000000000000000 = false ∧ wellFormedWord 0x03010000000000000001 = false := by decide

/-- The check of the register fields refuses X12 (`l`) and X11 (`r`). -/
theorem test_wellFormed_registers : wellFormedWord 0x0D650000000000000000 = false ∧
    wellFormedWord 0x030F0000000000000000 = false := by decide

/-- The boundary words that are valid. -/
theorem test_wellFormed_boundary : wellFormedWord 0x01500000000000000000 = true ∧
    wellFormedWord 0x15000000000000000000 = true ∧ wellFormedWord 0x0000FFFFFFFFFFFFFFFF = true := by decide

/-- The check of the program's length refuses a program of 2^64 words (R5). -/
theorem test_wellFormedProgram_tooLong : wellFormedProgram (List.replicate (2 ^ 64) 0) = false := by
  rw [wellFormedProgram, List.length_replicate]
  rfl

/-- The rows of the opcode table are those of its rule: 22, in the order of the opcodes. -/
theorem test_opcodeTable_order : opcodeTable.map (fun row => fieldOp row.pattern) = (List.range 22).map fun n => BitVec.ofNat 8 n := by decide

/-! ### One step of each instruction (part C) -/

/-- The "before" state of part C: IP = 4, phase Running, everything else at its reset value. -/
def at4 : State := { State.reset with ip := 4, started := true }

/-- The next state of an outcome; `s` where there is none. -/
def nextOr (s : State) : Host.Outcome State Fault Refusal → State
  | .next t => t
  | .fault _ => s
  | .refused _ => s

/-- The state after one step on the word `w` placed at IP. -/
def after (w : Nat) (s : State) : State := nextOr s (step (s.withFetchWord 80 w))

theorem test_pushI_lastSlot :  -- V2
    let t := after 0x0000FFFFFFFFFFFFFFFF { at4 with sp := 254 }
    t.sp = 255 ∧ t.stack.read 254 = 0xFFFFFFFFFFFFFFFF ∧ t.ip = 5 := by decide
theorem test_pushI_noWrap :  -- V4
    let t := after 0x00000000000000000007 { at4 with sp := 0xFFFFFFFFFFFFFFFF }
    t.fault = 2 ∧ t.ip = 4 ∧ t.stack = [] := by decide

theorem test_pushR_sp :  -- V7
    let t := after 0x01500000000000000000 { at4 with sp := 3 }
    t.sp = 4 ∧ t.stack.read 3 = 3 ∧ t.ip = 5 := by decide
theorem test_pushR_ip :  -- V8
    let t := after 0x01400000000000000000 { at4 with sp := 2 }
    t.sp = 3 ∧ t.stack.read 2 = 4 ∧ t.ip = 5 := by decide

theorem test_pop_sp :  -- V15
    let t := after 0x02500000000000000000 { at4 with sp := 1, stack := [(0, 0x3E8)] }
    t.sp = 0x3E8 ∧ t.ip = 5 ∧ t.fault = 0 := by decide
theorem test_pop_ip :  -- V16
    let t := after 0x02400000000000000000 { at4 with sp := 1, stack := [(0, 1)] }
    t.sp = 0 ∧ t.ip = 2 ∧ t.stack.read 0 = 1 := by decide

theorem test_add_wraps :  -- V18
    let t := after 0x03010000000000000000 { at4 with a := 0xFFFFFFFFFFFFFFFF, b := 2 }
    t.a = 1 ∧ t.b = 2 ∧ t.ip = 5 := by decide
theorem test_add_ip :  -- V50
    (after 0x03400000000000000000 { at4 with ip := 10, a := 4 }).ip = 15 := by decide

theorem test_sub_commuted :  -- V22
    let t := after 0x04100000000000000000 { at4 with a := 5, b := 3 }
    t.b = 0xFFFFFFFFFFFFFFFE ∧ t.a = 5 := by decide
theorem test_sub_sp :  -- V49
    let t := after 0x04500000000000000000 { at4 with a := 1, sp := 2 }
    t.sp = 1 ∧ t.ip = 5 := by decide

theorem test_mul_highHalfLost :  -- V24
    (after 0x05010000000000000000 { at4 with a := 0x100000000, b := 0x100000000 }).a = 0 := by decide
theorem test_mul :  -- V26
    (after 0x05010000000000000000 { at4 with a := 6, b := 7 }).a = 42 := by decide

theorem test_div_floor :  -- V27
    let t := after 0x06010000000000000000 { at4 with a := 7, b := 2 }
    t.a = 3 ∧ t.ip = 5 := by decide
theorem test_div_zero :  -- V29
    let t := after 0x06010000000000000000 { at4 with a := 7 }
    t.fault = 3 ∧ t.ip = 4 ∧ t.a = 7 ∧ t.halt = false := by decide

theorem test_xor :  -- V33
    (after 0x07010000000000000000 { at4 with a := 0xFF00, b := 0xFF0 }).a = 0xF0F0 := by decide
theorem test_xor_ip :  -- V51
    (after 0x07440000000000000000 at4).ip = 1 := by decide
theorem test_and :  -- V35
    (after 0x08010000000000000000 { at4 with a := 0xFF00, b := 0xFF0 }).a = 0xF00 := by decide
theorem test_or :  -- V36
    (after 0x09010000000000000000 { at4 with a := 0xFF00, b := 0xFF0 }).a = 0xFFF0 := by decide

theorem test_shl_63 :  -- V37
    (after 0x0A010000000000000000 { at4 with a := 3, b := 63 }).a = 0x8000000000000000 := by decide
theorem test_shl_wholeAmount :  -- V40
    let t := after 0x0A010000000000000000 { at4 with a := 3, b := 0xFFFFFFFFFFFFFFFF }
    t.fault = 3 ∧ t.a = 3 ∧ t.ip = 4 := by decide

theorem test_shr_logical :  -- V43
    (after 0x0B010000000000000000 { at4 with a := 0x8000000000000000, b := 63 }).a = 1 := by decide
theorem test_shr_64 :  -- V45
    let t := after 0x0B010000000000000000 { at4 with a := 1, b := 64 }
    t.fault = 3 ∧ t.a = 1 ∧ t.ip = 4 := by decide

theorem test_eq_false :  -- V52
    (after 0x0D010000000000000000 { at4 with a := 2, b := 3 }).ip = 6 := by decide
theorem test_eq_ip :  -- V63
    (after 0x0D400000000000000000 { at4 with a := 4 }).ip = 5 := by decide
theorem test_gt_unsigned :  -- V61
    (after 0x0E010000000000000000 { at4 with a := 0xFFFFFFFFFFFFFFFF }).ip = 5 := by decide
theorem test_gt_equal :  -- V56
    (after 0x0E010000000000000000 { at4 with a := 3, b := 3 }).ip = 6 := by decide
theorem test_lt :  -- V58
    (after 0x0F010000000000000000 { at4 with a := 2, b := 3 }).ip = 5 := by decide
theorem test_lt_unsigned :  -- V62
    (after 0x0F010000000000000000 { at4 with a := 0xFFFFFFFFFFFFFFFF }).ip = 6 := by decide

theorem test_jmp_noCheck :  -- V69
    let t := after 0x1000FFFFFFFFFFFFFFFF at4
    t.ip = 0xFFFFFFFFFFFFFFFF ∧ t.fault = 0 ∧ (nextOr t (step t)).fault = 1 := by decide
theorem test_jmp_zero :  -- V67
    (after 0x10000000000000000000 at4).ip = 0 := by decide
theorem test_jmpRel_back :  -- V71
    (after 0x1100FFFFFFFFFFFFFFFE at4).ip = 2 := by decide
theorem test_jmpRel_wraps :  -- V74
    (after 0x1100FFFFFFFFFFFFFFFB at4).ip = 0xFFFFFFFFFFFFFFFF := by decide

theorem test_call :  -- V75
    let t := after 0x12000000000000000005 { at4 with ip := 1 }
    t.sp = 1 ∧ t.stack.read 0 = 2 ∧ t.ip = 5 := by decide
theorem test_call_full :  -- V76
    let t := after 0x12000000000000000005 { at4 with sp := 255 }
    t.fault = 2 ∧ t.ip = 4 ∧ t.sp = 255 := by decide
theorem test_ret :  -- V78
    let t := after 0x13000000000000000000 { at4 with sp := 1, stack := [(0, 2)] }
    t.sp = 0 ∧ t.ip = 2 := by decide
theorem test_ret_empty :  -- V79
    let t := after 0x13000000000000000000 at4
    t.fault = 2 ∧ t.ip = 4 := by decide
theorem test_halt :  -- V81
    let t := after 0x15000000000000000000 { at4 with a := 1, sp := 3 }
    t.halt = true ∧ t.ip = 4 ∧ t.phase = .halted := by decide

theorem test_inp_discards :  -- V82
    let t := after 0x0C000000000000000000 { at4 with input := [0x0D, 0x0D, 0x41, 0x42] }
    t.a = 65 ∧ t.input = [0x42] ∧ t.ip = 5 := by decide
theorem test_inp_noByteKept :  -- V87
    let t := after 0x0C000000000000000000 { at4 with a := 9, input := [0x0D, 0x0D] }
    t.fault = 4 ∧ t.input = [] ∧ t.a = 9 ∧ t.ip = 4 ∧
      -- a channel that has not answered: rules R24 and R107
      step (State.withFetchWord { at4 with input := [0x0D, 0x0D], inputOpen := true } 80 0x0C000000000000000000) =
        .fault (.inputNotAnswered 2) := ⟨by decide, by decide, by decide, by decide, rfl⟩

theorem test_print_lowByte :  -- V91
    let t := after 0x14000000000000000000 { at4 with a := 0x141 }
    t.output = [0x41] ∧ t.ip = 5 ∧ t.a = 0x141 := by decide
theorem test_print_ip :  -- V93
    (after 0x14400000000000000000 at4).output = [0x04] := by decide

/-! ### Fetch, decode, reset and phases (parts C6 and E) -/

theorem test_fetch_at_N :  -- V95
    (nextOr at4 (step { at4 with prog := List.replicate 8 0, ip := 8 })).fault = 1 := by decide
theorem test_fetch_empty :  -- V96
    (nextOr at4 (step { at4 with ip := 0 })).fault = 1 := by decide
theorem test_illegal_pushes_nothing :  -- V100
    let t := after 0x00100000000000000005 at4
    t.fault = 5 ∧ t.ip = 4 ∧ t.sp = 0 ∧ t.stack = [] := by decide

/-- A state in which nothing is at its reset value. -/
def busy : State :=
  { a := 1, b := 2, c := 3, d := 4, ip := 5, sp := 2, stack := [(0, 3), (1, 6)], halt := true, started := true,
    fault := 0, prog := [0x15000000000000000000], input := [7], inputOpen := false, output := [20] }

theorem test_reset :  -- S1, S6
    ∃ t, hostReset [0x15000000000000000000] busy = some t ∧ t.a = 0 ∧ t.ip = 0 ∧ t.sp = 0 ∧ t.stack.read 1 = 0 ∧
      t.phase = .ready ∧ t.output = [] := ⟨_, rfl, by decide⟩
theorem test_run_in_ready :  -- S3
    ∃ t, hostReset [0x15000000000000000000] busy = some t ∧ (hostRun t).phase = .running ∧
      (nextOr busy (step (hostRun t))).halt = true := ⟨_, rfl, by decide⟩
theorem test_run_in_halted :  -- S4
    hostRun busy = busy := by decide
theorem test_run_in_faulted :  -- S5
    hostRun { busy with halt := false, fault := 3 } = { busy with halt := false, fault := 3 } := by decide
theorem test_phase : { at4 with fault := 2 }.phase = .faulted ∧ { at4 with halt := true }.phase = .halted := by decide  -- S7, S8

/-- The host reads the state of a halted machine and none of a running one. -/
theorem test_observe : (hostObserve busy).map (fun o => (o.phase, o.ip)) = some (.halted, 5) ∧ hostObserve at4 = none := ⟨rfl, rfl⟩

/-! ### Witnesses: states and operands that meet the hypotheses of the statements, clause by clause -/

/-- An instruction word placed where `s` fetches. -/
def placed (w : InstrWord) (s : State) : State := placeAtIp w s

theorem witness_EncodeOfDecode : decode 0x02500000000000000000 = .ok (.pop .sp) := by rfl

/-- The last free slot, and the first SP that faults. -/
theorem witness_PushImmediate : { at4 with sp := 254 }.sp.toNat < 255 ∧ 255 ≤ { at4 with sp := 255 }.sp.toNat := by decide

theorem witness_PushRegister : { at4 with sp := 0 }.sp.toNat < 255 ∧ 255 ≤ { at4 with sp := 256 }.sp.toNat := by decide

/-- The four boundary values of SP, and a register of each clause. -/
theorem witness_PopRegister : (1 ≤ { at4 with sp := 1 }.sp.toNat ∧ { at4 with sp := 1 }.sp.toNat ≤ 255) ∧
    (1 ≤ { at4 with sp := 255 }.sp.toNat ∧ { at4 with sp := 255 }.sp.toNat ≤ 255) ∧
    at4.sp.toNat = 0 ∧ 255 < { at4 with sp := 256 }.sp.toNat ∧ Reg.sp ≠ .ip ∧ Reg.ip ≠ .sp := by decide

theorem witness_PushImmediateThenPop : { at4 with sp := 254 }.sp.toNat ≤ 254 ∧ Reg.sp ≠ .ip ∧ Reg.ip ≠ .sp := by decide

theorem witness_PushRegisterThenPop : { at4 with sp := 254 }.sp.toNat ≤ 254 ∧ Reg.a ≠ .ip ∧ Reg.a ≠ .sp := by decide

/-- The words 255, 0 and 256 on top of a stack of one word: the boundary values of the next use. -/
theorem witness_StackPointerCheckedAtNextUse :
    1 ≤ { at4 with sp := 1 }.sp.toNat ∧ { at4 with sp := 1 }.sp.toNat ≤ 255 ∧
    255 ≤ (topWord { at4 with sp := 1, stack := [(0, 255)] }).toNat ∧
    (topWord { at4 with sp := 1 }).toNat = 0 ∧
    255 < (topWord { at4 with sp := 1, stack := [(0, 256)] }).toNat := by decide

/-- Two storages of the first and the last slot, written in different orders. -/
theorem witness_EqualSlotsEqualStorage :
    Memory.wf (Memory.write (Memory.write [] 0 7) 254 9) ∧ Memory.wf (Memory.write (Memory.write [] 254 9) 0 7) ∧
    ∀ i, Memory.read (Memory.write (Memory.write [] 0 7) 254 9) i =
      Memory.read (Memory.write (Memory.write [] 254 9) 0 7) i :=
  ⟨by decide, by decide, fun _ => rfl⟩

theorem witness_DivIsFloorQuotient : { at4 with b := 1 }.getReg .b ≠ 0 ∧ at4.getReg .b = 0 := by decide

theorem witness_ShlMultipliesByPower :
    ({ at4 with b := 63 }.getReg .b).toNat < 64 ∧ 64 ≤ ({ at4 with b := 64 }.getReg .b).toNat := by decide

theorem witness_ShrDividesByPower :
    ({ at4 with b := 0 }.getReg .b).toNat < 64 ∧ 64 ≤ ({ at4 with b := 64 }.getReg .b).toNat := by decide

theorem witness_SameRegisterTwice : { at4 with a := 1 }.getReg .a ≠ 0 ∧ at4.getReg .a = 0 ∧
    64 ≤ ({ at4 with a := 64 }.getReg .a).toNat ∧ ({ at4 with a := 63 }.getReg .a).toNat < 64 := by decide

/-- A `Jmp` to N, the first address that is none. -/
theorem witness_JmpContinuesAtTarget : ∃ t, exec (.jmp 1) { at4 with ip := 0, prog := [0] } = .next t ∧
    { at4 with ip := 0, prog := [0] }.phase = .running ∧ [(0 : InstrWord)].length ≤ t.ip.toNat :=
  ⟨_, rfl, by decide, by decide⟩

/-- Back by 1 and back to address 0, and a relative jump to N. -/
theorem witness_JmpRelAddsOffset :
    (1 ≤ 1 ∧ 1 ≤ at4.ip.toNat ∧ (0xFFFFFFFFFFFFFFFF : Word).toNat = 2 ^ 64 - 1) ∧
    (1 ≤ 4 ∧ 4 ≤ at4.ip.toNat ∧ (0xFFFFFFFFFFFFFFFC : Word).toNat = 2 ^ 64 - 4) ∧
    ∃ t, exec (.jmpRel 1) { at4 with ip := 0, prog := [0] } = .next t ∧
      { at4 with ip := 0, prog := [0] }.phase = .running ∧ [(0 : InstrWord)].length ≤ t.ip.toNat :=
  ⟨by decide, by decide, _, rfl, by decide, by decide⟩

theorem witness_JmpRelZeroNeverEnds : (placed 0x11000000000000000000 at4).phase = .running ∧
    (placed 0x11000000000000000000 at4).prog[(placed 0x11000000000000000000 at4).ip.toNat]? =
      some 0x11000000000000000000 := by decide

/-- The last free slot with a target that is N, and a full stack. -/
theorem witness_CallPushesReturnAddress : { at4 with sp := 254 }.sp.toNat < 255 ∧
    255 ≤ { at4 with sp := 255 }.sp.toNat ∧
    ∃ t, exec (.call 1) { at4 with ip := 0, sp := 254, prog := [0] } = .next t ∧
      { at4 with ip := 0, sp := 254, prog := [0] }.phase = .running ∧ [(0 : InstrWord)].length ≤ t.ip.toNat :=
  ⟨by decide, by decide, _, rfl, by decide, by decide⟩

/-- A `Call` of its own address at address 4, on an empty stack. -/
theorem witness_EndlessRecursionFillsTheStack : (placed (encode (.call 4)) at4).phase = .running ∧
    (placed (encode (.call 4)) at4).sp = 0 ∧
    (placed (encode (.call 4)) at4).prog[(placed (encode (.call 4)) at4).ip.toNat]? =
      some (encode (.call (placed (encode (.call 4)) at4).ip)) := by decide

/-- The four boundary values of SP, and a popped word that is N. -/
theorem witness_RetContinuesAtPoppedWord : (1 ≤ { at4 with sp := 1 }.sp.toNat ∧ { at4 with sp := 1 }.sp.toNat ≤ 255) ∧
    (1 ≤ { at4 with sp := 255 }.sp.toNat ∧ { at4 with sp := 255 }.sp.toNat ≤ 255) ∧
    at4.sp.toNat = 0 ∧ 255 < { at4 with sp := 256 }.sp.toNat ∧
    ∃ t, exec .ret { at4 with sp := 1, stack := [(0, 1)], prog := [0] } = .next t ∧
      { at4 with sp := 1, stack := [(0, 1)], prog := [0] }.phase = .running ∧ [(0 : InstrWord)].length ≤ t.ip.toNat :=
  ⟨by decide, by decide, by decide, by decide, _, rfl, by decide, by decide⟩

/-- A running machine that halts, the step after it, and an instruction that is no `Halt`. -/
theorem witness_HaltStopsTheMachine : at4.phase = .running ∧
    (∃ t u, exec .halt at4 = .next t ∧ step t = .next u) ∧ Instr.jmp 3 ≠ .halt ∧ ∃ u, exec (.jmp 3) at4 = .next u :=
  ⟨by decide, ⟨_, _, rfl, rfl⟩, by decide, _, rfl⟩

/-- The state right after a `Call` with one free slot meets what is asked of the state before the `Ret`. -/
theorem witness_CallThenRetReturns : { at4 with sp := 254 }.sp.toNat ≤ 254 ∧
    ∃ t, ∃ u : State, exec (.call 9) { at4 with sp := 254 } = .next t ∧ u.sp = t.sp ∧ u.stack.read 254 = t.stack.read 254 :=
  ⟨by decide, _, _, rfl, rfl, rfl⟩

/-- No carriage return and two of them before the byte that is kept, and a stream of two alone and an empty one. -/
theorem witness_InpKeepsFirstOtherByte :
    { at4 with input := [0x41, 0x42] }.input = List.replicate 0 0x0D ++ 0x41 :: [0x42] ∧
    { at4 with input := [0x0D, 0x0D, 0x41] }.input = List.replicate 2 0x0D ++ 0x41 :: [] ∧ (0x41 : Byte) ≠ 0x0D ∧
    { at4 with input := [0x0D, 0x0D] }.input = List.replicate 2 0x0D ∧ at4.input = List.replicate 0 0x0D ∧
    at4.inputOpen = false := by decide

theorem witness_InpWaitsForTheChannel : { at4 with inputOpen := true }.inputOpen = true ∧
    { at4 with inputOpen := true }.input = List.replicate 0 0x0D ∧
    { at4 with inputOpen := true, input := [0x0D] }.input = List.replicate 1 0x0D ∧ (0x41 : Byte) ≠ 0x0D := by decide

/-- A run of two steps, and an instruction that reads and one that writes a byte. -/
theorem witness_PortsAreUsedInOrder :
    (∃ t, Sys2Proof.core.run 2
      { at4 with ip := 0, prog := [0x0C000000000000000000, 0x14000000000000000000], input := [5, 6] } = .next t) ∧
    (∃ t, exec (.inp .a) { at4 with input := [5, 6] } = .next t ∧ t.input ≠ [5, 6]) ∧
    ∃ t, exec (.print .a) at4 = .next t ∧ t.output ≠ at4.output :=
  ⟨⟨_, rfl⟩, ⟨_, rfl, by decide⟩, _, rfl, by decide⟩

theorem witness_UnreadInputHasNoInfluence :
    (0x41 : Byte) ∈ { at4 with input := [0x0D, 0x41] }.input ∧ (0x41 : Byte) ≠ 0x0D := by decide

/-- A channel that has delivered one carriage return and no more, and one that has not ended but has a byte. -/
theorem witness_StepAnswersUnlessInputIsAwaited :
    AwaitsInput (placed 0x0C000000000000000000 { at4 with inputOpen := true, input := [0x0D] }) ∧
    ¬ AwaitsInput (placed 0x0C000000000000000000 { at4 with inputOpen := true, input := [0x41] }) :=
  ⟨⟨by decide, by decide, by decide, _, .a, rfl, rfl⟩, fun h => absurd (h.2.2.1 0x41 (by decide)) (by decide)⟩

theorem witness_StepRunsTheDecodedInstruction : (placed 0x02500000000000000000 at4).phase = .running ∧
    (placed 0x02500000000000000000 at4).prog[(placed 0x02500000000000000000 at4).ip.toNat]? =
      some 0x02500000000000000000 ∧ decode 0x02500000000000000000 = .ok (.pop .sp) := ⟨by decide, by decide, rfl⟩

/-- IP = N, and the empty program. -/
theorem witness_FetchOutOfRangeFaults : { at4 with prog := [0, 0, 0, 0] }.phase = .running ∧
    { at4 with prog := [0, 0, 0, 0] }.prog.length ≤ { at4 with prog := [0, 0, 0, 0] }.ip.toNat ∧
    at4.prog.length ≤ at4.ip.toNat := by decide

theorem witness_InvalidWordFaults : (placed 0x16000000000000000000 at4).phase = .running ∧
    (placed 0x16000000000000000000 at4).prog[(placed 0x16000000000000000000 at4).ip.toNat]? =
      some 0x16000000000000000000 ∧ wellFormedWord 0x16000000000000000000 = false := by decide

theorem witness_NoStepOutsideRunning : State.reset.phase ≠ .running ∧ busy.phase ≠ .running ∧
    { at4 with fault := 1 }.phase ≠ .running := by decide

/-- Ready, a step that goes on, one that halts and one that faults, and a state that is not running. -/
theorem witness_PhaseTransitions : (∃ t, hostReset [] busy = some t ∧ t.phase = .ready) ∧
    at4.phase = .running ∧
    (∃ t, step (placed 0x10000000000000000004 at4) = .next t ∧ t.phase = .running) ∧
    (∃ t, step (placed 0x15000000000000000000 at4) = .next t ∧ t.phase = .halted) ∧
    (∃ t, step (placed 0x02000000000000000000 at4) = .next t ∧ t.phase = .faulted) ∧
    busy.phase ≠ .running ∧ busy.phase = .halted ∧ { at4 with fault := 2 }.phase = .faulted ∧ ∃ t, step busy = .next t :=
  ⟨⟨_, rfl, by decide⟩, by decide, ⟨_, rfl, by decide⟩, ⟨_, rfl, by decide⟩, ⟨_, rfl, by decide⟩, by decide, by decide,
    by decide, _, rfl⟩

theorem witness_EndedRunsStayEnded : busy.phase = .halted ∧ { at4 with fault := 2 }.phase = .faulted ∧
    ∃ t, Sys2Proof.core.run 3 busy = .next t := ⟨by decide, by decide, _, rfl⟩

/-- A run of three steps that is safe. -/
theorem witness_SafeRunsWereSafeBefore : safeFor (1 + 2) (placed 0x11000000000000000000 at4) :=
  ⟨_, rfl, by simp only [State.Safe]; decide⟩

/-- A fault of an instruction, of an `Inp`, of the fetch and of the decoder. -/
theorem witness_FaultWritesOnlyItsCode :
    (∃ t, step (placed 0x06000000000000000000 at4) = .next t ∧ t.fault ≠ 0) ∧
    (∃ t, step (placed 0x0C000000000000000000 at4) = .next t ∧ t.fault ≠ 0) ∧
    (∃ t, step at4 = .next t ∧ t.fault ≠ 0) ∧
    (∃ t, step (placed 0x16000000000000000000 at4) = .next t ∧ t.fault ≠ 0) ∧
    (placed 0x06000000000000000000 at4).phase = .running ∧ at4.phase = .running :=
  ⟨⟨_, rfl, by decide⟩, ⟨_, rfl, by decide⟩, ⟨_, rfl, by decide⟩, ⟨_, rfl, by decide⟩, by decide, by decide⟩

theorem witness_FaultKindsOfEachInstruction : at4.fault = 0 ∧
    (∃ t, exec .ret at4 = .next t ∧ t.fault ≠ 0) ∧ (∃ t, exec (.div .a .b) at4 = .next t ∧ t.fault ≠ 0) ∧
    ∃ t, exec (.inp .a) at4 = .next t ∧ t.fault ≠ 0 :=
  ⟨by decide, ⟨_, rfl, by decide⟩, ⟨_, rfl, by decide⟩, _, rfl, by decide⟩

theorem witness_GeneralRegistersOnlyThroughOperands : Reg.c ≠ .ip ∧ Reg.c ≠ .sp ∧ Reg.c ∉ (Instr.add .a .b).operands ∧
    ∃ t, exec (.add .a .b) at4 = .next t := ⟨by decide, by decide, by decide, _, rfl⟩

theorem witness_ProgramIsImmutableAndOnlyFetched :
    (∃ t, Sys2Proof.core.run 2 (placed 0x11000000000000000000 at4) = .next t) ∧ at4.phase = .running ∧ at4.prog = [] :=
  ⟨⟨_, rfl⟩, by decide, by decide⟩

theorem witness_HaltFlagIsSetOnlyByHalt : (∃ t, hostReset [] busy = some t) ∧ (∃ t, exec .halt at4 = .next t) ∧
    Instr.ret ≠ .halt ∧ busy.halt = true ∧ (∃ t, step busy = .next t) ∧ (∃ o, hostObserve busy = some o) ∧ at4.phase = .running ∧
    ∃ t, step at4 = .next t ∧ t.fault ≠ 0 :=
  ⟨⟨_, rfl⟩, ⟨_, rfl⟩, by decide, by decide, ⟨_, rfl⟩, ⟨_, rfl⟩, by decide, _, rfl, by decide⟩

theorem witness_InvariantAfterReset : wellFormedProgram [0x16000000000000000000] = true ∧
    ∃ t, hostReset [0x16000000000000000000] busy = some t := ⟨by decide, _, rfl⟩

theorem witness_ResetSetsEveryField : State.reset.phase ≠ .running ∧ busy.phase ≠ .running ∧
    { at4 with fault := 3 }.phase ≠ .running := by decide

theorem witness_ResetLeavesTheChannel : ∃ t, hostReset [0x15000000000000000000] busy = some t := ⟨_, rfl⟩

theorem witness_RunningMachineHasNoHostMove : at4.phase = .running := by decide

/-- The invariant holds of a state with a full slot 254 that pops it in the next step. -/
theorem witness_InvariantKeptByEveryStep :
    Inv (placed 0x02000000000000000000 { at4 with sp := 255, stack := [(0, 3), (254, 171)] }) ∧
    ∃ t, step (placed 0x02000000000000000000 { at4 with sp := 255, stack := [(0, 3), (254, 171)] }) = .next t :=
  ⟨⟨by decide, by decide, by decide, by decide, by decide⟩, _, rfl⟩

theorem witness_RunStartsOnlyFromReady : State.reset.phase = .ready ∧ busy.phase ≠ .ready ∧ at4.phase ≠ .ready := by
  decide

theorem witness_ExecutionStartsAtAddressZero : decode 0x00000000000000000005 = .ok (.pushI 5) ∧
    wellFormedWord 0x16000000000000000000 = false ∧ (∃ t, hostReset [0x00000000000000000005] busy = some t) ∧
    ∃ t, hostReset [0x16000000000000000000] busy = some t := ⟨rfl, by decide, ⟨_, rfl⟩, _, rfl⟩

end Sys2Proof.Tests
end

section
/-!
Noninterference (10_state.md): what an instruction does not see. A change `f` of the state that no instruction of some
kind sees commutes with `exec` (`exec_unseen`). That is the reading half of R11, R18 and R19; the writing half follows
from it, by the change that puts in the value the state already has (`Unseen.kept`).
-/
namespace Sys2Proof.Machine

/-! ### Changes an instruction does not see -/

/-- The registers an instruction may read or write: IP and SP, which need no operand, and its operands (R11). -/
def usableRegs (i : Instr) : List Reg := .ip :: .sp :: i.operands

theorem ip_mem_usableRegs (i : Instr) : .ip ∈ usableRegs i := by simp [usableRegs]

theorem sp_mem_usableRegs (i : Instr) : .sp ∈ usableRegs i := by simp [usableRegs]

theorem operand_mem_usableRegs {i : Instr} {r : Reg} (h : r ∈ i.operands) : r ∈ usableRegs i := by
  simp [usableRegs, h]

/-- The change `f` of the state is none that the instruction `i` sees: all that `i` may read is the same after `f`, and
`f` commutes with every write that `i` may do. -/
structure Unseen (i : Instr) (f : State → State) : Prop where
  getReg : ∀ s, ∀ r ∈ usableRegs i, (f s).getReg r = s.getReg r
  stack : ∀ s, (f s).stack = s.stack
  input : ∀ s, (f s).input = s.input
  inputOpen : ∀ s, (f s).inputOpen = s.inputOpen
  setReg : ∀ s v, ∀ r ∈ usableRegs i, f (s.setReg r v) = (f s).setReg r v
  setStack : ∀ s m, f { s with stack := m } = { f s with stack := m }
  setInput : ∀ s bytes, f { s with input := bytes } = { f s with input := bytes }
  outWrite : ∀ s b, f (outWrite b s) = Machine.outWrite b (f s)
  raise : ∀ s k, f (raise k s) = Machine.raise k (f s)
  setHalt : i = .halt → ∀ s, f { s with halt := true } = { f s with halt := true }

section Operations

variable {i : Instr} {f : State → State}

theorem Unseen.ip (h : Unseen i f) (s : State) : (f s).ip = s.ip := h.getReg s .ip (ip_mem_usableRegs i)

theorem Unseen.sp (h : Unseen i f) (s : State) : (f s).sp = s.sp := h.getReg s .sp (sp_mem_usableRegs i)

theorem Unseen.setIp (h : Unseen i f) (s : State) (x : Word) : f { s with ip := x } = { f s with ip := x } :=
  h.setReg s x .ip (ip_mem_usableRegs i)

theorem Unseen.setSp (h : Unseen i f) (s : State) (x : Word) : f { s with sp := x } = { f s with sp := x } :=
  h.setReg s x .sp (sp_mem_usableRegs i)

theorem Unseen.setStackSp (h : Unseen i f) (s : State) (m : Memory) (x : Word) :
    f { s with stack := m, sp := x } = { f s with stack := m, sp := x } :=
  (h.setSp { s with stack := m } x).trans (congrArg (State.setReg · .sp x) (h.setStack s m))

theorem Unseen.operand (h : Unseen i f) (s : State) {r : Reg} (hr : r ∈ i.operands) : (f s).getReg r = s.getReg r :=
  h.getReg s r (operand_mem_usableRegs hr)

theorem Unseen.setOperand (h : Unseen i f) (s : State) {r : Reg} (hr : r ∈ i.operands) (v : Word) :
    (f s).setReg r v = f (s.setReg r v) :=
  (h.setReg s v r (operand_mem_usableRegs hr)).symm

theorem increment_eq_setReg (skip : Bool) (s : State) :
    increment skip s = s.setReg .ip (s.ip + 1 + if skip then 1 else 0) := rfl

theorem increment_unseen (h : Unseen i f) (skip : Bool) (s : State) : increment skip (f s) = f (increment skip s) := by
  rw [increment_eq_setReg, increment_eq_setReg, h.ip, h.setReg s _ .ip (ip_mem_usableRegs i)]

theorem aimAt_unseen (h : Unseen i f) (x : Word) (s : State) : aimAt x (f s) = f (aimAt x s) := (h.setIp s (x - 1)).symm

theorem push_unseen (h : Unseen i f) (v : Word) (s : State) : push v (f s) = (push v s).map f := by
  cases hp : push v s with
  | error k => exact (push_error_iff _ _ _).2 (by rw [h.sp]; exact (push_error_iff _ _ _).1 hp)
  | ok t =>
    obtain ⟨hsp, rfl⟩ := (push_ok_iff _ _ _).1 hp
    refine (push_ok_iff _ _ _).2 ⟨by rw [h.sp]; exact hsp, ?_⟩
    rw [h.sp, h.stack]
    exact h.setStackSp s _ _

theorem pop_unseen (h : Unseen i f) (s : State) : pop (f s) = (pop s).map fun p => (p.1, f p.2) := by
  cases hp : pop s with
  | error k => exact (pop_error_iff _ _).2 (by rw [h.sp]; exact (pop_error_iff _ _).1 hp)
  | ok p =>
    obtain ⟨hsp, hv, ht⟩ := (pop_ok_iff _ p.2 p.1).1 hp
    refine (pop_ok_iff _ _ _).2 ⟨by rw [h.sp]; exact hsp, by rw [h.sp, h.stack]; exact hv, ?_⟩
    rw [h.sp, ht]
    exact h.setSp s _

theorem conclude_unseen (h : Unseen i f) (s : State) (e : Except FaultKind State) :
    conclude (f s) (e.map f) = mapNext f (conclude s e) := by
  cases e with
  | ok t => exact congrArg Host.Outcome.next (increment_unseen h false t)
  | error k => exact congrArg Host.Outcome.next (h.raise s k).symm

/-- An operation that answers through `f`, and a rest that `f` commutes with: so does the whole step. -/
theorem conclude_map_unseen {α : Type} (h : Unseen i f) (s : State) {e e' : Except FaultKind α} (fα : α → α)
    (rest : α → State) (he : e' = e.map fα) (hrest : ∀ x, rest (fα x) = f (rest x)) :
    conclude (f s) (e'.map rest) = mapNext f (conclude s (e.map rest)) := by
  rw [← conclude_unseen h, he]
  cases e with
  | ok x => exact congrArg (fun t => conclude (f s) (.ok t)) (hrest x)
  | error k => rfl

theorem binary_unseen (h : Unseen i f) (op : Word → Word → Except FaultKind Word) {l r : Reg}
    (hops : i.operands = [l, r]) (s : State) : binary op l r (f s) = mapNext f (binary op l r s) := by
  have hl : l ∈ i.operands := by simp [hops]
  have hr : r ∈ i.operands := by simp [hops]
  rw [binary_eq, binary_eq, h.operand s hl, h.operand s hr]
  cases op (s.getReg l) (s.getReg r) with
  | ok v => exact congrArg Host.Outcome.next (by rw [h.setOperand s hl, increment_unseen h])
  | error k => exact congrArg Host.Outcome.next (h.raise s k).symm

theorem skipUnless_unseen (h : Unseen i f) (rel : Word → Word → Bool) {l r : Reg} (hops : i.operands = [l, r])
    (s : State) : skipUnless (rel ((f s).getReg l) ((f s).getReg r)) (f s) =
      mapNext f (skipUnless (rel (s.getReg l) (s.getReg r)) s) := by
  rw [h.operand s (r := l) (by simp [hops]), h.operand s (r := r) (by simp [hops])]
  exact congrArg Host.Outcome.next (increment_unseen h _ s)

theorem execInp_unseen (h : Unseen i f) {r : Reg} (hr : r ∈ i.operands) (s : State) :
    execInp r (f s) = mapNext f (execInp r s) := by
  have hread : inpSequence (f s).inputOpen (f s).input = inpSequence s.inputOpen s.input := by
    rw [h.inputOpen, h.input]
  unfold execInp
  rw [hread, h.input]
  cases inpSequence s.inputOpen s.input with
  | byte b left =>
    have hwrite : State.setReg { f s with input := left } r (zext64 b) =
        f (State.setReg { s with input := left } r (zext64 b)) :=
      (congrArg (State.setReg · r (zext64 b)) (h.setInput s left).symm).trans (h.setOperand _ hr _)
    exact congrArg Host.Outcome.next ((congrArg (increment false) hwrite).trans (increment_unseen h false _))
  | exhausted =>
    exact congrArg Host.Outcome.next
      ((congrArg (Machine.raise _) (h.setInput s []).symm).trans (h.raise _ _).symm)
  | noAnswer => rfl

/-- An instruction does the same whether or not a change it does not see was made before. -/
theorem exec_unseen (h : Unseen i f) (s : State) : exec i (f s) = mapNext f (exec i s) := by
  cases i with
  | pushI imm => exact (congrArg _ (push_unseen h imm s)).trans (conclude_unseen h s _)
  | pushR r =>
    have hr : (f s).getReg r = s.getReg r := h.operand s (by simp [Instr.operands])
    change conclude (f s) (push ((f s).getReg r) (f s)) = _
    rw [hr, push_unseen h, conclude_unseen h]
    rfl
  | pop r => exact conclude_map_unseen h s _ _ (pop_unseen h s) fun p => h.setOperand p.2 (by simp [Instr.operands]) p.1
  | add l r => exact binary_unseen h aluAdd rfl s
  | sub l r => exact binary_unseen h aluSub rfl s
  | mul l r => exact binary_unseen h aluMul rfl s
  | div l r => exact binary_unseen h aluDiv rfl s
  | xor l r => exact binary_unseen h aluXor rfl s
  | and l r => exact binary_unseen h aluAnd rfl s
  | or l r => exact binary_unseen h aluOr rfl s
  | shl l r => exact binary_unseen h aluShl rfl s
  | shr l r => exact binary_unseen h aluShr rfl s
  | inp r => exact execInp_unseen h (by simp [Instr.operands]) s
  | eq l r => exact skipUnless_unseen h relEq rfl s
  | gt l r => exact skipUnless_unseen h relGt rfl s
  | lt l r => exact skipUnless_unseen h relLt rfl s
  | jmp addr =>
    change conclude (f s) (.ok (aimAt addr (f s))) = _
    rw [aimAt_unseen h]
    exact conclude_unseen h s (.ok _)
  | jmpRel off =>
    change conclude (f s) (.ok (aimAt ((f s).ip + off) (f s))) = _
    rw [h.ip, aimAt_unseen h]
    exact conclude_unseen h s (.ok _)
  | call addr =>
    change conclude (f s) ((push ((f s).ip + 1) (f s)).map (aimAt addr)) = _
    rw [h.ip]
    exact conclude_map_unseen h s f _ (push_unseen h _ s) fun t => aimAt_unseen h addr t
  | ret => exact conclude_map_unseen h s _ _ (pop_unseen h s) fun p => aimAt_unseen h p.1 p.2
  | print r =>
    have hr : (f s).getReg r = s.getReg r := h.operand s (by simp [Instr.operands])
    change conclude (f s) (.ok (outWrite (lowByte ((f s).getReg r)) (f s))) = _
    rw [hr, ← h.outWrite]
    exact conclude_unseen h s (.ok _)
  | halt => exact congrArg Host.Outcome.next (h.setHalt rfl s).symm

/-- A change the instruction does not see, and that would change nothing before it, would change nothing after it. -/
theorem Unseen.kept (h : Unseen i f) {s t : State} (hs : f s = s) (ht : exec i s = .next t) : f t = t := by
  have hcomm := exec_unseen h s
  rw [hs, ht] at hcomm
  exact (Host.Outcome.next.inj hcomm).symm

end Operations

/-! ### Steps and faults -/

/-- What a running machine's step can be, seen from its next state: a fault of fetch or decode, or an instruction. -/
theorem running_step_cases {s t : State} (hrun : s.phase = .running) (h : step s = .next t) :
    (∃ k, t = raise k s) ∨ ∃ i, exec i s = .next t := by
  rcases step_cases s with ⟨hp, -⟩ | ⟨-, -, hs⟩ | ⟨-, w, -, ⟨e, -, hs⟩ | ⟨i, -, hs⟩⟩
  · exact absurd hrun hp
  · exact .inl ⟨_, Host.Outcome.next.inj (h.symm.trans hs)⟩
  · exact .inl ⟨_, Host.Outcome.next.inj (h.symm.trans hs)⟩
  · exact .inr ⟨i, hs.symm.trans h⟩

/-- Outside phase Running nothing changes (log entry 3). -/
theorem step_eq_of_not_running {s t : State} (hp : s.phase ≠ .running) (h : step s = .next t) : t = s := by
  rcases step_cases s with ⟨-, hs⟩ | ⟨hrun, -⟩ | ⟨hrun, -⟩
  · exact Host.Outcome.next.inj (h.symm.trans hs)
  · exact absurd hrun hp
  · exact absurd hrun hp

/-- Raising a fault writes its code and nothing else (R115). -/
theorem faultTaken_raise (k : FaultKind) (s : State) : FaultTaken k.code s (raise k s) :=
  ⟨rfl, fun q _ => raise_getReg k s q, fun _ => rfl, rfl, rfl, rfl, rfl, rfl, rfl⟩

/-- A fetch at `IP >= N` faults (R61). -/
theorem step_of_ip_out_of_range {s : State} (hrun : s.phase = .running) (hip : s.prog.length ≤ s.ip.toNat) :
    step s = .next (raise .invalidAddress s) := by
  rcases step_cases s with ⟨hp, -⟩ | ⟨-, -, hs⟩ | ⟨-, w, hw, -⟩
  · exact absurd hrun hp
  · exact hs
  · rw [List.getElem?_eq_none hip] at hw
    cases hw

/-! ### A register that is no operand (R11) -/

theorem setReg_comm (s : State) {q r : Reg} (v w : Word) (h : q ≠ r) :
    (s.setReg q v).setReg r w = (s.setReg r w).setReg q v := by
  cases q <;> cases r <;> first | rfl | exact absurd rfl h

theorem setReg_unseen {i : Instr} {g : Reg} (v : Word) (hg : g ∉ usableRegs i) :
    Unseen i fun s => s.setReg g v where
  getReg s r hr := getReg_setReg_other s g r v fun e => hg (e ▸ hr)
  stack s := setReg_stack s g v
  input s := setReg_input s g v
  inputOpen s := setReg_inputOpen s g v
  setReg s w r hr := setReg_comm s w v fun e => hg (e ▸ hr)
  setStack s m := by cases g <;> rfl
  setInput s bytes := by cases g <;> rfl
  outWrite s b := by cases g <;> rfl
  raise s k := by cases g <;> rfl
  setHalt _ s := by cases g <;> rfl

theorem exec_keeps_unnamed_reg {i : Instr} {g : Reg} (hg : g ∉ usableRegs i) {s t : State} (h : exec i s = .next t) :
    t.getReg g = s.getReg g := by
  have hkept := (setReg_unseen (s.getReg g) hg).kept (setReg_getReg s g) h
  rw [← hkept, getReg_setReg_same]

/-- Settles O51: writing a register the instruction cannot use is a change it does not see. -/
theorem generalRegistersOnlyThroughOperands : Obligations.GeneralRegistersOnlyThroughOperands := by
  intro i g s v hip hsp hop
  have hg : g ∉ usableRegs i := by simp [usableRegs, hip, hsp, hop]
  exact ⟨fun t h => exec_keeps_unnamed_reg hg h, exec_unseen (setReg_unseen v hg) s⟩

/-! ### The program (R18) -/

theorem setProg_unseen (i : Instr) (p : List InstrWord) : Unseen i fun s => { s with prog := p } where
  getReg s r _ := by cases r <;> rfl
  stack _ := rfl
  input _ := rfl
  inputOpen _ := rfl
  setReg s v r _ := by cases r <;> rfl
  setStack _ _ := rfl
  setInput _ _ := rfl
  outWrite _ _ := rfl
  raise _ _ := rfl
  setHalt _ _ := rfl

theorem exec_keeps_prog {i : Instr} {s t : State} (h : exec i s = .next t) : t.prog = s.prog :=
  (congrArg State.prog ((setProg_unseen i s.prog).kept rfl h)).symm

theorem step_keeps_prog {s t : State} (h : step s = .next t) : t.prog = s.prog := by
  by_cases hrun : s.phase = .running
  · rcases running_step_cases hrun h with ⟨k, rfl⟩ | ⟨i, hi⟩
    · exact raise_prog k s
    · exact exec_keeps_prog hi
  · rw [step_eq_of_not_running hrun h]

theorem run_keeps_prog (k : Nat) (s t : State) (h : Sys2Proof.core.run k s = .next t) : t.prog = s.prog :=
  run_induction (fun s t => t.prog = s.prog) (fun _ => rfl) (fun _ _ _ hs ht => ht.trans (step_keeps_prog hs)) k s t h

/-- Settles O52: replacing the program is a change no instruction sees; the runs by `run_induction`. -/
theorem programIsImmutableAndOnlyFetched : Obligations.ProgramIsImmutableAndOnlyFetched := by
  refine ⟨run_keeps_prog, fun i s p => exec_unseen (setProg_unseen i p) s, fun s hrun hempty => ?_⟩
  have hip : s.prog.length ≤ s.ip.toNat := by simp [hempty]
  exact ⟨_, step_of_ip_out_of_range hrun hip, faultTaken_raise .invalidAddress s⟩

/-! ### The halt flag (R19) -/

theorem setHalt_unseen {i : Instr} (hi : i ≠ .halt) (b : Bool) : Unseen i fun s => { s with halt := b } where
  getReg s r _ := by cases r <;> rfl
  stack _ := rfl
  input _ := rfl
  inputOpen _ := rfl
  setReg s v r _ := by cases r <;> rfl
  setStack _ _ := rfl
  setInput _ _ := rfl
  outWrite _ _ := rfl
  raise _ _ := rfl
  setHalt h := absurd h hi

theorem exec_halt (s : State) : exec .halt s = .next { s with halt := true } := rfl

theorem exec_keeps_halt {i : Instr} (hi : i ≠ .halt) {s t : State} (h : exec i s = .next t) : t.halt = s.halt :=
  (congrArg State.halt ((setHalt_unseen hi s.halt).kept rfl h)).symm

theorem exec_halt_flag_cases (i : Instr) (s t : State) (h : exec i s = .next t) :
    t.halt = s.halt ∨ (i = .halt ∧ t.halt = true) := by
  by_cases hi : i = .halt
  · subst hi
    cases h
    exact .inr ⟨rfl, rfl⟩
  · exact .inl (exec_keeps_halt hi h)

/-- A step that faults leaves `halt` at 0: `Halt`, the one instruction that sets it, raises no fault. -/
theorem halt_false_of_step_faulted {s t : State} (hrun : s.phase = .running) (h : step s = .next t)
    (hfault : t.fault ≠ 0) : t.halt = false := by
  obtain ⟨hnofault, hhalt, -⟩ := (phase_running_iff s).1 hrun
  rcases running_step_cases hrun h with ⟨k, rfl⟩ | ⟨i, hexec⟩
  · exact hhalt
  · by_cases hi : i = .halt
    · subst hi
      cases hexec
      exact absurd hnofault hfault
    · exact (exec_keeps_halt hi hexec).trans hhalt

theorem not_running_of_halt {s : State} (h : s.halt = true) : s.phase ≠ .running := fun hrun => by
  obtain ⟨-, hhalt, -⟩ := (phase_running_iff s).1 hrun
  simp [h] at hhalt

/-- Settles O53, clause by clause: writing the flag is a change that no instruction but `Halt` sees, and `Halt` writes
it without reading it. -/
theorem haltFlagIsSetOnlyByHalt : Obligations.HaltFlagIsSetOnlyByHalt := by
  refine ⟨fun prog s t hreset => ?reset, fun s hrun => ?running, fun s o hobs => ?observed, exec_halt_flag_cases,
    fun i s b hi => exec_unseen (setHalt_unseen hi b) s, fun s b => ?haltReads,
    fun s t hhalt => step_eq_of_not_running (not_running_of_halt hhalt), fun s t => halt_false_of_step_faulted⟩
  case reset =>
    obtain ⟨-, rfl⟩ := (hostReset_eq_some_iff prog s t).1 hreset
    rfl
  case running =>
    obtain ⟨-, hhalt, -⟩ := (phase_running_iff s).1 hrun
    exact hhalt
  case observed =>
    obtain ⟨-, hhalt, -⟩ := hostObserve_eq_some s o hobs
    exact hhalt
  case haltReads => rw [exec_halt, exec_halt]

end Sys2Proof.Machine
end

section
/-!
The phases (40_run_loop.md). A step keeps `started`, so the phase it leads to from Running is decided by `fault` and `halt`
alone, in the order of R21; the host's two moves have one lemma each for the phase they lead to.
-/
namespace Sys2Proof.Machine

/-! ### `started` (R20) -/

theorem exec_keeps_started {i : Instr} {s t : State} (h : exec i s = .next t) : t.started = s.started := by
  cases exec_cases i s t h <;> simp

theorem step_keeps_started {s t : State} (h : step s = .next t) : t.started = s.started := by
  by_cases hrun : s.phase = .running
  · rcases running_step_cases hrun h with ⟨k, rfl⟩ | ⟨i, hi⟩
    · exact raise_started k s
    · exact exec_keeps_started hi
  · rw [step_eq_of_not_running hrun h]

/-! ### Where each move leads (R68) -/

/-- The three ways out of a running machine's step. That a fault leaves `halt` at 0 is `halt_false_of_step_faulted`. -/
theorem running_step_phase_cases {s t : State} (hrun : s.phase = .running) (h : step s = .next t) :
    t.phase = .running ∨ (t.phase = .halted ∧ t.halt = true ∧ t.fault = 0) ∨
      (t.phase = .faulted ∧ t.halt = false ∧ t.fault ≠ 0) := by
  obtain ⟨-, -, hstarted⟩ := (phase_running_iff s).1 hrun
  by_cases hfault : t.fault = 0
  · cases hhalt : t.halt with
    | true => exact .inr (.inl ⟨(phase_halted_iff t).2 ⟨hfault, hhalt⟩, rfl, hfault⟩)
    | false => exact .inl ((phase_running_iff t).2 ⟨hfault, hhalt, (step_keeps_started h).trans hstarted⟩)
  · exact .inr (.inr ⟨(phase_faulted_iff t).2 hfault, halt_false_of_step_faulted hrun h hfault, hfault⟩)

theorem resetWith_phase (prog : List InstrWord) (bytes : List Byte) (more : Bool) :
    (State.resetWith prog bytes more).phase = .ready :=
  (phase_ready_iff _).2 ⟨rfl, rfl, rfl⟩

theorem hostRun_of_ready {s : State} (h : s.phase = .ready) : hostRun s = { s with started := true } := by
  rw [hostRun_eq, if_pos h]

theorem hostRun_of_not_ready {s : State} (h : s.phase ≠ .ready) : hostRun s = s := by rw [hostRun_eq, if_neg h]

theorem hostRun_phase_of_ready {s : State} (h : s.phase = .ready) : (hostRun s).phase = .running := by
  obtain ⟨hfault, hhalt, -⟩ := (phase_ready_iff s).1 h
  rw [hostRun_of_ready h]
  exact (phase_running_iff _).2 ⟨hfault, hhalt, rfl⟩

/-- Settles O45, one transition of the diagram after the other. -/
theorem phaseTransitions : Obligations.PhaseTransitions := by
  refine ⟨fun prog s t hreset => ?reset, fun s hready => ⟨hostRun_phase_of_ready hready, ?started⟩,
    fun s t => running_step_phase_cases, fun s t => step_eq_of_not_running, fun s hended => ?ended⟩
  case reset =>
    obtain ⟨-, rfl⟩ := (hostReset_eq_some_iff prog s t).1 hreset
    exact resetWith_phase prog s.input s.inputOpen
  case started => rw [hostRun_of_ready hready]
  case ended =>
    have hready : s.phase ≠ .ready := by rcases hended with hp | hp <;> simp [hp]
    have hrunning : s.phase ≠ .running := by rcases hended with hp | hp <;> simp [hp]
    exact ⟨hostRun_of_not_ready hready, fun prog => ⟨_, (hostReset_eq_some_iff prog s _).2 ⟨hrunning, rfl⟩⟩⟩

end Sys2Proof.Machine
end

section
/-!
The stack instructions (41_stack.md). A push that ends the step has one lemma for each side of the check SP >= 255,
over any word pushed.
-/
namespace Sys2Proof.Machine

/-- Format I with both register fields zero is accepted, whatever the immediate (R46, R48). -/
theorem decodeI_packWord (op : BitVec 8) (imm : Word) (mk : Word → Instr) :
    decodeI (packWord op 0 0 imm) mk = .ok (mk imm) := by
  simp [decodeI]

theorem decode_packWord_pushI (imm : Word) : decode (packWord 0x00 0 0 imm) = .ok (.pushI imm) := by
  have hformat : decode (packWord 0x00 0 0 imm) = decodeI (packWord 0x00 0 0 imm) .pushI := by
    rw [decode, fieldOp_packWord]
    rfl
  rw [hformat, decodeI_packWord]

theorem exec_pushI (imm : Word) (s : State) : exec (.pushI imm) s = conclude s (push imm s) := rfl

/-- The state with `v` in slot SP, SP one greater and IP at `x`: the `pushed` case of `ExecCase`. -/
def pushedAt (v x : Word) (s : State) : State :=
  { s with stack := s.stack.write s.sp.toNat v, sp := s.sp + 1, ip := x }

theorem pushedAt_regsKept (v x : Word) (s : State) : RegsKept [.sp, .ip] s (pushedAt v x s) := by
  intro q hq
  cases q with
  | a | b | c | d => rfl
  | ip | sp => simp at hq

theorem pushResult_pushedAt (v x : Word) (s : State) : PushResult v x s (pushedAt v x s) where
  stored := ⟨read_write_same s.stack s.sp.toNat v, fun j hj => read_write_other s.stack s.sp.toNat j v hj⟩
  newSp := rfl
  nextIp := rfl
  regs := pushedAt_regsKept v x s
  control := ⟨rfl, rfl, rfl⟩
  env := ⟨rfl, rfl, rfl, rfl⟩

/-- With a free slot the push is done and the step ends with the uniform increment (R70, R63). -/
theorem conclude_push_of_room (v : Word) {s : State} (h : s.sp.toNat < 255) :
    conclude s (push v s) = .next (pushedAt v (s.ip + 1) s) := by
  rw [(push_ok_iff v s _).2 ⟨h, rfl⟩, conclude_ok]
  simp [increment, pushedAt]

/-- With SP >= 255 the push is refused before anything is written (R70, R117). -/
theorem conclude_push_of_full (v : Word) {s : State} (h : 255 ≤ s.sp.toNat) :
    conclude s (push v s) = .next (raise .stackFault s) := by
  rw [(push_error_iff v s _).2 ⟨h, rfl⟩, conclude_error]

/-- Settles O6: the decoded word, then the two sides of the push's check. -/
theorem pushImmediate : Obligations.PushImmediate := by
  intro imm s
  refine ⟨decode_packWord_pushI imm, fun hroom => ?room, fun hfull => ?full⟩
  case room =>
    exact ⟨_, (exec_pushI imm s).trans (conclude_push_of_room imm hroom), pushResult_pushedAt imm (s.ip + 1) s⟩
  case full =>
    exact ⟨_, (exec_pushI imm s).trans (conclude_push_of_full imm hfull), faultTaken_raise .stackFault s⟩

end Sys2Proof.Machine
end

section
/-!
The arithmetic and bitwise instructions (42_alu.md). `BinaryInstr` says what R77 gives them in common: the opcode
selects format RR, and the meaning is `binary` of a value function. Each instruction is then its value function and one
fact about words.
-/
namespace Sys2Proof.Machine

/-! ### The common shape (R77) -/

/-- Format RR with a zero immediate is accepted for every pair of registers (R46, R47). -/
theorem decodeRR_packWord (op : BitVec 8) (l r : Reg) (mk : Reg → Reg → Instr) :
    decodeRR (packWord op (regNumber l) (regNumber r) 0) mk = .ok (mk l r) := by
  simp [decodeRR]

/-- The register written and the increment after it: with IP as the destination, the increment is on the new IP (R63). -/
theorem registerResult_setReg (r : Reg) (v : Word) (s : State) :
    RegisterResult r v s (increment false (s.setReg r v)) where
  result hr := by rw [increment_getReg false _ r hr, getReg_setReg_same]
  nextIp := by simp
  regs q hq := by
    obtain ⟨hqr, hqip⟩ : q ≠ r ∧ q ≠ .ip := by simpa using hq
    rw [increment_getReg false _ q hqip, getReg_setReg_other s r q v hqr]
  stack i := by simp
  control := by simp [ControlKept]
  env := by simp [EnvKept]

/-- `mk` is the family's instruction with opcode `op` and value function `f`. -/
structure BinaryInstr (op : BitVec 8) (mk : Reg → Reg → Instr) (f : Word → Word → Except FaultKind Word) : Prop where
  format : ∀ w, fieldOp w = op → decode w = decodeRR w mk
  meaning : ∀ l r s, exec (mk l r) s = binary f l r s

section CommonShape

variable {op : BitVec 8} {mk : Reg → Reg → Instr} {f : Word → Word → Except FaultKind Word}

theorem BinaryInstr.decode_packWord (h : BinaryInstr op mk f) (l r : Reg) :
    decode (packWord op (regNumber l) (regNumber r) 0) = .ok (mk l r) := by
  rw [h.format _ (fieldOp_packWord _ _ _ _), decodeRR_packWord]

theorem BinaryInstr.exec_of_value (h : BinaryInstr op mk f) {l r : Reg} {s : State} {v : Word}
    (hv : f (s.getReg l) (s.getReg r) = .ok v) : exec (mk l r) s = .next (increment false (s.setReg l v)) := by
  rw [h.meaning, binary_eq, hv]

theorem BinaryInstr.exec_of_fault (h : BinaryInstr op mk f) {l r : Reg} {s : State} {k : FaultKind}
    (hk : f (s.getReg l) (s.getReg r) = .error k) : exec (mk l r) s = .next (raise k s) := by
  rw [h.meaning, binary_eq, hk]

/-- A value ends the step with it as the one result; `P` is what a statement says of the value. -/
theorem BinaryInstr.completes (h : BinaryInstr op mk f) {l r : Reg} {s : State} {v : Word} {P : Word → Prop}
    (hv : f (s.getReg l) (s.getReg r) = .ok v) (hP : P v) :
    ∃ t w, exec (mk l r) s = .next t ∧ P w ∧ RegisterResult l w s t :=
  ⟨_, v, h.exec_of_value hv, hP, registerResult_setReg l v s⟩

theorem BinaryInstr.faults (h : BinaryInstr op mk f) {l r : Reg} {s : State} {k : FaultKind}
    (hk : f (s.getReg l) (s.getReg r) = .error k) : ∃ t, exec (mk l r) s = .next t ∧ FaultTaken k.code s t :=
  ⟨_, h.exec_of_fault hk, faultTaken_raise k s⟩

end CommonShape

/-! ### The opcodes and value functions (R78 to R85) -/

theorem binaryInstr_add : BinaryInstr 0x03 .add aluAdd := ⟨fun w h => by simp [decode, h], fun _ _ _ => rfl⟩

theorem binaryInstr_sub : BinaryInstr 0x04 .sub aluSub := ⟨fun w h => by simp [decode, h], fun _ _ _ => rfl⟩

theorem binaryInstr_mul : BinaryInstr 0x05 .mul aluMul := ⟨fun w h => by simp [decode, h], fun _ _ _ => rfl⟩

theorem binaryInstr_xor : BinaryInstr 0x07 .xor aluXor := ⟨fun w h => by simp [decode, h], fun _ _ _ => rfl⟩

theorem binaryInstr_and : BinaryInstr 0x08 .and aluAnd := ⟨fun w h => by simp [decode, h], fun _ _ _ => rfl⟩

theorem binaryInstr_or : BinaryInstr 0x09 .or aluOr := ⟨fun w h => by simp [decode, h], fun _ _ _ => rfl⟩

theorem binaryInstr_shl : BinaryInstr 0x0A .shl aluShl := ⟨fun w h => by simp [decode, h], fun _ _ _ => rfl⟩

/-! ### The values as numbers -/

/-- The word difference is the integer difference modulo 2^64: a borrow wraps round (R79). -/
theorem toNat_sub_eq_emod (x y : Word) : ((x - y).toNat : Int) = ((x.toNat : Int) - y.toNat) % 2 ^ 64 := by
  rw [BitVec.toNat_sub]
  omega

theorem toNat_shiftLeft_eq_mul_mod (x : Word) (n : Nat) : (x <<< n).toNat = x.toNat * 2 ^ n % 2 ^ 64 := by
  rw [BitVec.toNat_shiftLeft, Nat.shiftLeft_eq]

theorem aluShl_of_lt (x : Word) {n : Word} (h : n.toNat < 64) : aluShl x n = .ok (x <<< n.toNat) :=
  if_neg (Nat.not_le.2 h)

theorem aluShl_of_ge (x : Word) {n : Word} (h : 64 ≤ n.toNat) : aluShl x n = .error .arithmeticFault := if_pos h

/-! ### The obligations -/

/-- Settles O13: the sum of words is the sum of numbers modulo 2^64. -/
theorem addWrapsModulo : Obligations.AddWrapsModulo := fun l r s =>
  ⟨binaryInstr_add.decode_packWord l r,
    binaryInstr_add.completes (v := s.getReg l + s.getReg r) rfl (BitVec.toNat_add _ _)⟩

/-- Settles O14, by the integer reading of the word difference. -/
theorem subIsLeftMinusRight : Obligations.SubIsLeftMinusRight := fun l r s =>
  ⟨binaryInstr_sub.decode_packWord l r,
    binaryInstr_sub.completes (v := s.getReg l - s.getReg r) rfl (toNat_sub_eq_emod _ _)⟩

/-- Settles O15: the product of words is the product of numbers modulo 2^64. -/
theorem mulKeepsLowHalf : Obligations.MulKeepsLowHalf := fun l r s =>
  ⟨binaryInstr_mul.decode_packWord l r,
    binaryInstr_mul.completes (v := s.getReg l * s.getReg r) rfl (BitVec.toNat_mul _ _)⟩

/-- Settles O17: the bits of the numbers are those of the words. -/
theorem xorIsBitwise : Obligations.XorIsBitwise := by
  intro l r s
  refine ⟨binaryInstr_xor.decode_packWord l r,
    binaryInstr_xor.completes (v := s.getReg l ^^^ s.getReg r) rfl fun k _ => ?_⟩
  rw [BitVec.toNat_xor, Nat.testBit_xor]

/-- Settles O18: the bits of the numbers are those of the words. -/
theorem andIsBitwise : Obligations.AndIsBitwise := by
  intro l r s
  refine ⟨binaryInstr_and.decode_packWord l r,
    binaryInstr_and.completes (v := s.getReg l &&& s.getReg r) rfl fun k _ => ?_⟩
  rw [BitVec.toNat_and, Nat.testBit_and]

/-- Settles O19: the bits of the numbers are those of the words. -/
theorem orIsBitwise : Obligations.OrIsBitwise := by
  intro l r s
  refine ⟨binaryInstr_or.decode_packWord l r,
    binaryInstr_or.completes (v := s.getReg l ||| s.getReg r) rfl fun k _ => ?_⟩
  rw [BitVec.toNat_or, Nat.testBit_or]

/-- Settles O20: the two sides of the check on the whole amount. -/
theorem shlMultipliesByPower : Obligations.ShlMultipliesByPower := by
  intro l r s
  refine ⟨binaryInstr_shl.decode_packWord l r, fun hlt => ?shifts, fun hge => ?faults⟩
  case shifts => exact binaryInstr_shl.completes (aluShl_of_lt _ hlt) (toNat_shiftLeft_eq_mul_mod _ _)
  case faults => exact binaryInstr_shl.faults (aluShl_of_ge _ hge)

end Sys2Proof.Machine
end

section
/-!
The comparisons (43_compare.md). `CompareInstr` says what R90 gives them in common: the opcode selects format RR, and
the meaning is a skip unless a relation holds. Each instruction is then its relation, read over unsigned numbers.
-/
namespace Sys2Proof.Machine

/-! ### The common shape (R90) -/

theorem onlyIp_setIp (x : Word) (s : State) : OnlyIp x s { s with ip := x } where
  nextIp := rfl
  regs q hq := getReg_setReg_other s .ip q x (by simpa using hq)
  stack _ := rfl
  control := ⟨rfl, rfl, rfl⟩
  env := ⟨rfl, rfl, rfl, rfl⟩

/-- The extra increment stands exactly where the relation fails, and with it IP moves by 2 (R64). -/
theorem onlyIp_increment_not {holds : Bool} {P : Prop} [Decidable P] (h : holds = true ↔ P) (s : State) :
    OnlyIp (s.ip + if P then 1 else 2) s (increment (!holds) s) := by
  have hip : s.ip + 1 + (if !holds then 1 else 0) = s.ip + if P then 1 else 2 := by
    by_cases hP : P
    · simp [h.2 hP, hP]
    · have hfails : holds = false := Bool.eq_false_iff.2 (mt h.1 hP)
      simp [hfails, hP, BitVec.add_assoc]
  rw [← hip]
  exact onlyIp_setIp _ s

/-- `mk` is the family's instruction with opcode `op` and relation `rel`. -/
structure CompareInstr (op : BitVec 8) (mk : Reg → Reg → Instr) (rel : Word → Word → Bool) : Prop where
  format : ∀ w, fieldOp w = op → decode w = decodeRR w mk
  meaning : ∀ l r s, exec (mk l r) s = skipUnless (rel (s.getReg l) (s.getReg r)) s

section CommonShape

variable {op : BitVec 8} {mk : Reg → Reg → Instr} {rel : Word → Word → Bool}

theorem CompareInstr.decode_packWord (h : CompareInstr op mk rel) (l r : Reg) :
    decode (packWord op (regNumber l) (regNumber r) 0) = .ok (mk l r) := by
  rw [h.format _ (fieldOp_packWord _ _ _ _), decodeRR_packWord]

/-- Every comparison completes; `P` is what a statement says for the relation of the two operands. -/
theorem CompareInstr.completes (h : CompareInstr op mk rel) {l r : Reg} {s : State} {P : Prop} [Decidable P]
    (hrel : rel (s.getReg l) (s.getReg r) = true ↔ P) :
    ∃ t, exec (mk l r) s = .next t ∧ OnlyIp (s.ip + if P then 1 else 2) s t :=
  ⟨_, h.meaning l r s, onlyIp_increment_not hrel s⟩

end CommonShape

/-! ### The opcodes and relations (R91 to R93) -/

theorem compareInstr_eq : CompareInstr 0x0D .eq relEq := ⟨fun w h => by simp [decode, h], fun _ _ _ => rfl⟩

theorem compareInstr_gt : CompareInstr 0x0E .gt relGt := ⟨fun w h => by simp [decode, h], fun _ _ _ => rfl⟩

theorem compareInstr_lt : CompareInstr 0x0F .lt relLt := ⟨fun w h => by simp [decode, h], fun _ _ _ => rfl⟩

/-! ### The relations over numbers -/

theorem relEq_iff (x y : Word) : relEq x y = true ↔ x.toNat = y.toNat := by
  rw [relEq, beq_iff_eq, BitVec.toNat_inj]

theorem relLt_iff (x y : Word) : relLt x y = true ↔ x.toNat < y.toNat := BitVec.ult_iff_lt

theorem relGt_iff (x y : Word) : relGt x y = true ↔ y.toNat < x.toNat := relLt_iff y x

/-! ### The obligations -/

/-- Settles O23: words are equal when their numbers are. -/
theorem eqSkipsUnlessEqual : Obligations.EqSkipsUnlessEqual := fun l r _ =>
  ⟨compareInstr_eq.decode_packWord l r, compareInstr_eq.completes (relEq_iff _ _)⟩

/-- Settles O24, by the unsigned reading of the relation. -/
theorem gtSkipsUnlessGreater : Obligations.GtSkipsUnlessGreater := fun l r _ =>
  ⟨compareInstr_gt.decode_packWord l r, compareInstr_gt.completes (relGt_iff _ _)⟩

/-- Settles O25, by the unsigned reading of the relation. -/
theorem ltSkipsUnlessLess : Obligations.LtSkipsUnlessLess := fun l r _ =>
  ⟨compareInstr_lt.decode_packWord l r, compareInstr_lt.completes (relLt_iff _ _)⟩

end Sys2Proof.Machine
end

section
/-!
The control transfers (44_control.md). Each completing transfer ends in the state its equation names; that a bad target is
found by the next fetch needs only that `prog` and the control fields are kept (`badTargetFoundAtFetch_of_kept`).
-/
namespace Sys2Proof.Machine

/-! ### The words -/

/-- Format N with every field but the opcode zero is accepted (R46). -/
theorem decodeN_packWord (op : BitVec 8) (i : Instr) : decodeN (packWord op 0 0 0) i = .ok i := by
  simp [decodeN]

theorem decode_packWord_jmp (addr : Word) : decode (packWord 0x10 0 0 addr) = .ok (.jmp addr) := by
  rw [decode, fieldOp_packWord]
  exact decodeI_packWord 0x10 addr .jmp

theorem decode_packWord_call (addr : Word) : decode (packWord 0x12 0 0 addr) = .ok (.call addr) := by
  rw [decode, fieldOp_packWord]
  exact decodeI_packWord 0x12 addr .call

theorem decode_packWord_ret : decode (packWord 0x13 0 0 0) = .ok .ret := by
  rw [decode, fieldOp_packWord]
  exact decodeN_packWord 0x13 .ret

theorem decode_packWord_halt : decode (packWord 0x15 0 0 0) = .ok .halt := by
  rw [decode, fieldOp_packWord]
  exact decodeN_packWord 0x15 .halt

/-! ### The target and the next fetch (R102) -/

theorem phase_running_of_controlKept {s t : State} (hrun : s.phase = .running) (h : ControlKept s t) :
    t.phase = .running := by
  obtain ⟨hhalt, hstarted, hfault⟩ := h
  rw [phase_running_iff] at hrun ⊢
  rwa [hhalt, hstarted, hfault]

/-- No transfer checks its target: what keeps the control fields and the program leaves the check to the next fetch. -/
theorem badTargetFoundAtFetch_of_kept {s t : State} (hcontrol : ControlKept s t) (henv : EnvKept s t) :
    BadTargetFoundAtFetch s t := by
  intro hrun htarget
  obtain ⟨hprog, -⟩ := henv
  rw [← hprog] at htarget
  exact ⟨_, step_of_ip_out_of_range (phase_running_of_controlKept hrun hcontrol) htarget,
    faultTaken_raise .invalidAddress t⟩

/-! ### The meanings -/

theorem exec_jmp (addr : Word) (s : State) : exec (.jmp addr) s = .next { s with ip := addr } :=
  congrArg Host.Outcome.next (increment_aimAt addr s)

theorem exec_call (addr : Word) (s : State) :
    exec (.call addr) s = conclude s ((push (s.ip + 1) s).map fun t => aimAt addr t) := rfl

theorem exec_ret (s : State) : exec .ret s = conclude s ((pop s).map fun p => aimAt p.1 p.2) := rfl

theorem exec_call_of_room (addr : Word) {s : State} (h : s.sp.toNat < 255) :
    exec (.call addr) s = .next (pushedAt (s.ip + 1) addr s) := by
  rw [exec_call, (push_ok_iff _ _ _).2 ⟨h, rfl⟩]
  exact congrArg Host.Outcome.next (increment_aimAt addr _)

theorem exec_call_of_full (addr : Word) {s : State} (h : 255 ≤ s.sp.toNat) :
    exec (.call addr) s = .next (raise .stackFault s) := by
  rw [exec_call, (push_error_iff _ _ _).2 ⟨h, rfl⟩]
  rfl

/-- The state with the top word in IP and SP one less: the `returned` case of `ExecCase`. -/
def returned (s : State) : State := { s with sp := s.sp - 1, ip := topWord s }

theorem returned_regsKept (s : State) : RegsKept [.sp, .ip] s (returned s) := by
  intro q hq
  cases q with
  | a | b | c | d => rfl
  | ip | sp => simp at hq

theorem returned_controlKept (s : State) : ControlKept s (returned s) := ⟨rfl, rfl, rfl⟩

theorem returned_envKept (s : State) : EnvKept s (returned s) := ⟨rfl, rfl, rfl, rfl⟩

theorem exec_ret_of_words {s : State} (hlow : 1 ≤ s.sp.toNat) (hhigh : s.sp.toNat ≤ 255) :
    exec .ret s = .next (returned s) := by
  rw [exec_ret, (pop_ok_iff s _ _).2 ⟨⟨hlow, hhigh⟩, rfl, rfl⟩]
  exact congrArg Host.Outcome.next (increment_aimAt (topWord s) _)

theorem exec_ret_of_no_word {s : State} (h : s.sp.toNat = 0 ∨ 255 < s.sp.toNat) :
    exec .ret s = .next (raise .stackFault s) := by
  rw [exec_ret, (pop_error_iff s _).2 ⟨h, rfl⟩]
  rfl

/-! ### The obligations -/

/-- Settles O27: the aim and the increment cancel, so only IP moves. -/
theorem jmpContinuesAtTarget : Obligations.JmpContinuesAtTarget := fun addr s =>
  have honly := onlyIp_setIp addr s
  ⟨decode_packWord_jmp addr, _, exec_jmp addr s, honly, badTargetFoundAtFetch_of_kept honly.control honly.env⟩

/-- Settles O30: the two sides of the push's check; the jump only follows a push that was done. -/
theorem callPushesReturnAddress : Obligations.CallPushesReturnAddress := by
  intro addr s
  refine ⟨decode_packWord_call addr, fun hroom => ?room, fun hfull => ?full⟩
  case room =>
    have hpush := pushResult_pushedAt (s.ip + 1) addr s
    exact ⟨_, exec_call_of_room addr hroom, hpush, badTargetFoundAtFetch_of_kept hpush.control hpush.env⟩
  case full => exact ⟨_, exec_call_of_full addr hfull, faultTaken_raise .stackFault s⟩

/-- Settles O32: the two sides of the pop's check. -/
theorem retContinuesAtPoppedWord : Obligations.RetContinuesAtPoppedWord := by
  intro s
  refine ⟨decode_packWord_ret, fun hlow hhigh => ?words, fun hnone => ?none⟩
  case words =>
    exact ⟨returned s, exec_ret_of_words hlow hhigh, rfl, toNat_pred s.sp hlow, returned_regsKept s, fun _ => rfl,
      returned_controlKept s, returned_envKept s,
      badTargetFoundAtFetch_of_kept (returned_controlKept s) (returned_envKept s)⟩
  case none => exact ⟨_, exec_ret_of_no_word hnone, faultTaken_raise .stackFault s⟩

theorem setHalt_regsKept (b : Bool) (s : State) : RegsKept [] s { s with halt := b } := by
  intro q _
  cases q <;> rfl

/-- Settles O33: `halt` alone changes; with it set the phase is Halted, where no step is taken. -/
theorem haltStopsTheMachine : Obligations.HaltStopsTheMachine := by
  refine ⟨decode_packWord_halt, fun s => ⟨?halts, fun i u hi hexec => exec_keeps_halt hi hexec⟩⟩
  case halts =>
    refine ⟨_, exec_halt s, rfl, setHalt_regsKept true s, fun _ => rfl, rfl, rfl, ⟨rfl, rfl, rfl, rfl⟩, fun hrun => ?_⟩
    obtain ⟨hnofault, -, -⟩ := (phase_running_iff s).1 hrun
    exact ⟨(phase_halted_iff _).2 ⟨hnofault, rfl⟩, fun u => step_eq_of_not_running (not_running_of_halt rfl)⟩

end Sys2Proof.Machine
end

section
/-!
Input and output (45_io.md). What a stream of carriage returns, or of carriage returns and another byte, answers an `Inp`
is a fact of the read transactions (R105, R106); the register written, the fault and the increment are the shared ones.
-/
namespace Sys2Proof.Machine

/-! ### The words -/

/-- Format R with one register and zeros elsewhere is accepted for every register (R46, R47). -/
theorem decodeR_packWord (op : BitVec 8) (r : Reg) (mk : Reg → Instr) :
    decodeR (packWord op (regNumber r) 0 0) mk = .ok (mk r) := by
  simp [decodeR]

theorem decode_packWord_inp (r : Reg) : decode (packWord 0x0C (regNumber r) 0 0) = .ok (.inp r) := by
  rw [decode, fieldOp_packWord]
  exact decodeR_packWord 0x0C r .inp

theorem decode_packWord_print (r : Reg) : decode (packWord 0x14 (regNumber r) 0 0) = .ok (.print r) := by
  rw [decode, fieldOp_packWord]
  exact decodeR_packWord 0x14 r .print

/-! ### Bytes and words (R8, R109) -/

theorem zext64_toNat (b : Byte) : (zext64 b).toNat = b.toNat :=
  BitVec.toNat_setWidth_of_le (by decide)

theorem lowByte_toNat (v : Word) : (lowByte v).toNat = v.toNat % 256 := by
  rw [lowByte, BitVec.extractLsb'_toNat, Nat.shiftRight_zero]

/-! ### The meaning of `Inp`, by the answer of its reads -/

theorem inpSequence_of_byte (more : Bool) (n : Nat) {b : Byte} (left : List Byte) (hb : b ≠ Config.cr) :
    inpSequence more (List.replicate n Config.cr ++ b :: left) = .byte b left := by
  rw [inpSequence_skips, inpSequence, if_neg hb]

theorem inpSequence_of_only_cr (more : Bool) (n : Nat) :
    inpSequence more (List.replicate n Config.cr) = inRead more [] := by
  rw [← List.append_nil (List.replicate n Config.cr), inpSequence_skips, inpSequence]

theorem exec_inp_of_byte (r : Reg) {s : State} {b : Byte} {left : List Byte}
    (h : inpSequence s.inputOpen s.input = .byte b left) :
    exec (.inp r) s = .next (increment false (State.setReg { s with input := left } r (zext64 b))) := by
  change execInp r s = _
  rw [execInp, h]
  rfl

theorem exec_inp_of_exhausted (r : Reg) {s : State} (h : inpSequence s.inputOpen s.input = .exhausted) :
    exec (.inp r) s = .next (raise .inputExhausted { s with input := [] }) := by
  change execInp r s = _
  rw [execInp, h]

/-! ### The meaning of `Print` -/

theorem exec_print (r : Reg) (s : State) :
    exec (.print r) s = .next (increment false (outWrite (lowByte (s.getReg r)) s)) := rfl

/-- The uniform increment moves IP by 1 and changes nothing else (R63). -/
theorem onlyIp_increment (s : State) : OnlyIp (s.ip + 1) s (increment false s) := by
  have hset : increment false s = { s with ip := s.ip + 1 } := by simp [increment]
  rw [hset]
  exact onlyIp_setIp (s.ip + 1) s

/-! ### The obligations -/

/-- Settles O35: the two ways a stream that has been delivered can answer the reads. -/
theorem inpKeepsFirstOtherByte : Obligations.InpKeepsFirstOtherByte := by
  intro r s
  refine ⟨decode_packWord_inp r, fun n b left hinput hb => ?keeps, fun n hinput hended => ?exhausts⟩
  case keeps =>
    have hread : inpSequence s.inputOpen s.input = .byte b left := by
      rw [hinput]
      exact inpSequence_of_byte s.inputOpen n left hb
    exact ⟨_, zext64 b, exec_inp_of_byte r hread, zext64_toNat b, registerResult_setReg r (zext64 b) _⟩
  case exhausts =>
    have hread : inpSequence s.inputOpen s.input = .exhausted := by
      rw [hinput, hended]
      exact inpSequence_of_only_cr false n
    exact ⟨_, exec_inp_of_exhausted r hread, faultTaken_raise .inputExhausted _⟩

/-- Settles O37: the write to the output log, then the uniform increment on the state it leaves. -/
theorem printWritesLowByte : Obligations.PrintWritesLowByte := fun r s =>
  ⟨decode_packWord_print r, _, lowByte (s.getReg r), exec_print r s, lowByte_toNat _,
    onlyIp_increment (outWrite (lowByte (s.getReg r)) s)⟩

end Sys2Proof.Machine
end

section
/-!
Reset (70_reset_and_hazards.md): the machine a reset constructs, and when the host's reset answers it.
-/
namespace Sys2Proof.Machine

@[simp] theorem resetWith_getReg (prog : List InstrWord) (bytes : List Byte) (more : Bool) (r : Reg) :
    (State.resetWith prog bytes more).getReg r = 0 := by
  cases r <;> rfl

/-- Every slot of the constructed machine is 0, since its storage lists none (R27, log entry 7). -/
@[simp] theorem resetWith_stack_read (prog : List InstrWord) (bytes : List Byte) (more : Bool) (i : Nat) :
    (State.resetWith prog bytes more).stack.read i = 0 :=
  read_nil i

/-- Settles O56: the values of the constructed machine, and the channel's part of `s` as what the host's reset hands it. -/
theorem resetSetsEveryField : Obligations.ResetSetsEveryField := by
  refine ⟨fun prog bytes more => ?constructed, fun prog s hphase => ?answered⟩
  case constructed =>
    exact ⟨resetWith_getReg prog bytes more, resetWith_stack_read prog bytes more, rfl, rfl, rfl,
      resetWith_phase prog bytes more, rfl⟩
  case answered =>
    exact ⟨s.input, s.inputOpen, (hostReset_eq_some_iff prog s _).2 ⟨hphase, rfl⟩⟩

end Sys2Proof.Machine
end

section
/-!
The decoder and the encoder (30_encoding.md). `opcodeMap` says once which format each of the 22 opcodes has and what it
builds. The decoder, the encoder and the opcode table are each tied to it by one lemma, and what is left to prove of an
instruction is proved of the four formats.
-/
namespace Sys2Proof.Machine

/-! ### The words of `PushR`, `Pop`, `JmpRel`, `Div` and `Shr` -/

theorem decode_packWord_pushR (r : Reg) : decode (packWord 0x01 (regNumber r) 0 0) = .ok (.pushR r) := by
  rw [decode, fieldOp_packWord]
  exact decodeR_packWord 0x01 r .pushR

theorem decode_packWord_pop (r : Reg) : decode (packWord 0x02 (regNumber r) 0 0) = .ok (.pop r) := by
  rw [decode, fieldOp_packWord]
  exact decodeR_packWord 0x02 r .pop

theorem decode_packWord_jmpRel (off : Word) : decode (packWord 0x11 0 0 off) = .ok (.jmpRel off) := by
  rw [decode, fieldOp_packWord]
  exact decodeI_packWord 0x11 off .jmpRel

theorem binaryInstr_div : BinaryInstr 0x06 .div aluDiv := ⟨fun w h => by simp [decode, h], fun _ _ _ => rfl⟩

theorem binaryInstr_shr : BinaryInstr 0x0B .shr aluShr := ⟨fun w h => by simp [decode, h], fun _ _ _ => rfl⟩

/-- Settles O2: the word of each instruction, by the lemma of its opcode. -/
theorem decodeOfEncode : Obligations.DecodeOfEncode := by
  intro i
  cases i with
  | pushI imm => exact decode_packWord_pushI imm
  | pushR r => exact decode_packWord_pushR r
  | pop r => exact decode_packWord_pop r
  | add l r => exact binaryInstr_add.decode_packWord l r
  | sub l r => exact binaryInstr_sub.decode_packWord l r
  | mul l r => exact binaryInstr_mul.decode_packWord l r
  | div l r => exact binaryInstr_div.decode_packWord l r
  | xor l r => exact binaryInstr_xor.decode_packWord l r
  | and l r => exact binaryInstr_and.decode_packWord l r
  | or l r => exact binaryInstr_or.decode_packWord l r
  | shl l r => exact binaryInstr_shl.decode_packWord l r
  | shr l r => exact binaryInstr_shr.decode_packWord l r
  | inp r => exact decode_packWord_inp r
  | eq l r => exact compareInstr_eq.decode_packWord l r
  | gt l r => exact compareInstr_gt.decode_packWord l r
  | lt l r => exact compareInstr_lt.decode_packWord l r
  | jmp addr => exact decode_packWord_jmp addr
  | jmpRel off => exact decode_packWord_jmpRel off
  | call addr => exact decode_packWord_call addr
  | ret => exact decode_packWord_ret
  | print r => exact decode_packWord_print r
  | halt => exact decode_packWord_halt

/-! ### The opcode map (R46, R49) -/

/-- The four formats N, I, R and RR of R46, each with what it builds from the fields it uses. -/
inductive Format where
  | opOnly (j : Instr)
  | imm (mk : Word → Instr)
  | reg (mk : Reg → Instr)
  | regReg (mk : Reg → Reg → Instr)

/-- The formats of the opcodes 0x00 to 0x15, in their order (R49). -/
def opcodeMap : List Format :=
  [.imm .pushI, .reg .pushR, .reg .pop, .regReg .add, .regReg .sub, .regReg .mul, .regReg .div, .regReg .xor,
    .regReg .and, .regReg .or, .regReg .shl, .regReg .shr, .reg .inp, .regReg .eq, .regReg .gt, .regReg .lt, .imm .jmp,
    .imm .jmpRel, .imm .call, .opOnly .ret, .reg .print, .opOnly .halt]

/-- The decoder of a format. -/
def Format.decode (w : InstrWord) : Format → Except Reject Instr
  | .opOnly j => decodeN w j
  | .imm mk => decodeI w mk
  | .reg mk => decodeR w mk
  | .regReg mk => decodeRR w mk

/-- The encoder writes the instructions of the format with the opcode `op`, in the fields the format uses. -/
def Format.Encodes (op : BitVec 8) : Format → Prop
  | .opOnly j => encode j = packWord op 0 0 0
  | .imm mk => ∀ x, encode (mk x) = packWord op 0 0 x
  | .reg mk => ∀ r, encode (mk r) = packWord op (regNumber r) 0 0
  | .regReg mk => ∀ l r, encode (mk l r) = packWord op (regNumber l) (regNumber r) 0

/-- The row of the opcode table for the format with the opcode `op`. -/
def Format.row (m : String) (op : BitVec 8) : Format → OpcodeRow
  | .opOnly _ => .formN m (packWord op 0 0 0)
  | .imm _ => .formI m (packWord op 0 0 0)
  | .reg _ => .formR m (packWord op 0 0 0)
  | .regReg _ => .formRR m (packWord op 0 0 0)

theorem decode_of_opcodeMap {w : InstrWord} {f : Format} (h : opcodeMap[(fieldOp w).toNat]? = some f) :
    decode w = f.decode w := by
  obtain ⟨hop, rfl⟩ := List.getElem?_eq_some_iff.1 h
  unfold decode
  generalize (fieldOp w).toNat = n at hop
  change n < 22 at hop
  interval_cases n <;> rfl

theorem opcodeMap_of_decode_ok {w : InstrWord} {i : Instr} (h : decode w = .ok i) :
    ∃ f, opcodeMap[(fieldOp w).toNat]? = some f :=
  ⟨_, List.getElem?_eq_getElem (decode_ok_op w i h)⟩

theorem opcodeMap_encodes {op : BitVec 8} {f : Format} (h : opcodeMap[op.toNat]? = some f) : f.Encodes op := by
  obtain ⟨hop, rfl⟩ := List.getElem?_eq_some_iff.1 h
  have hlt : op.toNat < 22 := hop
  clear h
  obtain ⟨n, rfl⟩ : ∃ n : Fin 22, op = BitVec.ofNat 8 n := ⟨⟨op.toNat, hlt⟩, by simp⟩
  fin_cases n <;> (repeat intro _) <;> rfl

theorem opcodeTable_rows : ∀ row ∈ opcodeTable, ∃ f, opcodeMap[(fieldOp row.pattern).toNat]? = some f ∧
    row = f.row row.mnemonic (fieldOp row.pattern) := by
  intro row h
  fin_cases h <;> exact ⟨_, rfl, rfl⟩

/-! ### Each way round -/

/-- A format that accepts a word accepts the one word of the instruction it builds. -/
theorem Format.encode_of_decode {f : Format} {w : InstrWord} {i : Instr} (hf : f.Encodes (fieldOp w))
    (h : f.decode w = .ok i) : encode i = w := by
  have hw := packWord_fields w
  cases f with
  | opOnly j =>
    obtain ⟨hl, hr, himm, rfl⟩ := decodeN_ok w j i h
    exact hf.trans (by rwa [hl, hr, himm] at hw)
  | imm mk =>
    obtain ⟨hl, hr, rfl⟩ := decodeI_ok w mk i h
    exact (hf _).trans (by rwa [hl, hr] at hw)
  | reg mk =>
    obtain ⟨hr, himm, q, hq, rfl⟩ := decodeR_ok w mk i h
    exact (hf q).trans (by rwa [hq, hr, himm] at hw)
  | regReg mk =>
    obtain ⟨himm, l, q, hl, hq, rfl⟩ := decodeRR_ok w mk i h
    exact (hf l q).trans (by rwa [hl, hq, himm] at hw)

/-- Settles O3: the opcode gives the format, and a format gives the word back. -/
theorem encodeOfDecode : Obligations.EncodeOfDecode := by
  intro w i h
  obtain ⟨f, hf⟩ := opcodeMap_of_decode_ok h
  rw [decode_of_opcodeMap hf] at h
  exact Format.encode_of_decode (opcodeMap_encodes hf) h

theorem encodesWellFormed (i : Instr) : wellFormedWord (encode i) = true := by
  cases i with
  | pushI imm => exact Laws.EncodesWellFormed.pushI imm
  | pushR r => exact Laws.EncodesWellFormed.pushR r
  | pop r => exact Laws.EncodesWellFormed.pop r
  | add l r => exact Laws.EncodesWellFormed.add l r
  | sub l r => exact Laws.EncodesWellFormed.sub l r
  | mul l r => exact Laws.EncodesWellFormed.mul l r
  | div l r => exact Laws.EncodesWellFormed.div l r
  | xor l r => exact Laws.EncodesWellFormed.xor l r
  | and l r => exact Laws.EncodesWellFormed.and l r
  | or l r => exact Laws.EncodesWellFormed.or l r
  | shl l r => exact Laws.EncodesWellFormed.shl l r
  | shr l r => exact Laws.EncodesWellFormed.shr l r
  | inp r => exact Laws.EncodesWellFormed.inp r
  | eq l r => exact Laws.EncodesWellFormed.eq l r
  | gt l r => exact Laws.EncodesWellFormed.gt l r
  | lt l r => exact Laws.EncodesWellFormed.lt l r
  | jmp addr => exact Laws.EncodesWellFormed.jmp addr
  | jmpRel off => exact Laws.EncodesWellFormed.jmpRel off
  | call addr => exact Laws.EncodesWellFormed.call addr
  | ret => exact Laws.EncodesWellFormed.ret
  | print r => exact Laws.EncodesWellFormed.print r
  | halt => exact Laws.EncodesWellFormed.halt

/-- Packed words are equal when their fields are. -/
theorem packWord_inj {op op' : BitVec 8} {l l' r r' : BitVec 4} {imm imm' : Word} :
    packWord op l r imm = packWord op' l' r' imm' ↔ op = op' ∧ l = l' ∧ r = r' ∧ imm = imm' := by
  refine ⟨fun h => ⟨?_, ?_, ?_, ?_⟩, by rintro ⟨rfl, rfl, rfl, rfl⟩; rfl⟩
  · simpa using congrArg fieldOp h
  · simpa using congrArg fieldL h
  · simpa using congrArg fieldR h
  · simpa using congrArg fieldImm h

theorem and_ones4 (x : BitVec 4) : x &&& 0xF = x := by
  rw [show (0xF : BitVec 4) = BitVec.allOnes 4 from rfl, BitVec.and_allOnes]

theorem and_ones64 (x : Word) : x &&& 0xFFFFFFFFFFFFFFFF = x := by
  rw [show (0xFFFFFFFFFFFFFFFF : Word) = BitVec.allOnes 64 from rfl, BitVec.and_allOnes]

/-- A field that the table lets name a register is the number of one (R55). -/
theorem eq_regNumber_of_le {n : BitVec 4} (h : n.toNat ≤ 5) : ∃ r, n = regNumber r := by
  obtain ⟨r, hr⟩ := (regOfNumber_isOk_iff n).2 h
  exact ⟨r, (regOfNumber_ok_iff n r).1 hr⟩

/-- A row with a mask of whole fields, read field by field. -/
theorem fits_packWord_iff {row : OpcodeRow} {mop op : BitVec 8} {ml mr l r : BitVec 4} {mimm imm : Word}
    {p : BitVec 8} (hmask : row.mask = packWord mop ml mr mimm) (hpattern : row.pattern = packWord p 0 0 0) :
    row.fits (packWord op l r imm) = true ↔
      (op &&& mop = p ∧ l &&& ml = 0 ∧ r &&& mr = 0 ∧ imm &&& mimm = 0) ∧
        (row.regL = true → l.toNat ≤ 5) ∧ (row.regR = true → r.toNat ≤ 5) := by
  rw [OpcodeRow.fits, Bool.and_eq_true, OpcodeRow.bitsMatch, beq_iff_eq, hmask, hpattern, packWord_and, packWord_inj,
    registersNamed_packWord]
  cases row.regL <;> cases row.regR <;> simp

/-- What fits the row of a format has its opcode, and the format accepts it. -/
theorem Format.decodes_of_fits {f : Format} {m : String} {op : BitVec 8} {w : InstrWord}
    (h : (f.row m op).fits w = true) : fieldOp w = op ∧ ∃ i, f.decode w = .ok i := by
  rw [← packWord_fields w] at h ⊢
  generalize fieldOp w = op', fieldL w = l, fieldR w = r, fieldImm w = imm at h ⊢
  rw [fieldOp_packWord]
  cases f with
  | opOnly j =>
    obtain ⟨⟨hop, hl, hr, himm⟩, -⟩ :=
      (fits_packWord_iff (mop := 0xFF) (ml := 0xF) (mr := 0xF) (mimm := 0xFFFFFFFFFFFFFFFF) rfl rfl).1 h
    rw [and_ones8] at hop
    rw [and_ones4] at hl hr
    rw [and_ones64] at himm
    subst hop hl hr himm
    exact ⟨rfl, _, decodeN_packWord op' j⟩
  | imm mk =>
    obtain ⟨⟨hop, hl, hr, -⟩, -⟩ :=
      (fits_packWord_iff (mop := 0xFF) (ml := 0xF) (mr := 0xF) (mimm := 0) rfl rfl).1 h
    rw [and_ones8] at hop
    rw [and_ones4] at hl hr
    subst hop hl hr
    exact ⟨rfl, _, decodeI_packWord op' imm mk⟩
  | reg mk =>
    obtain ⟨⟨hop, -, hr, himm⟩, hnamed, -⟩ :=
      (fits_packWord_iff (mop := 0xFF) (ml := 0) (mr := 0xF) (mimm := 0xFFFFFFFFFFFFFFFF) rfl rfl).1 h
    rw [and_ones8] at hop
    rw [and_ones4] at hr
    rw [and_ones64] at himm
    obtain ⟨q, hq⟩ := eq_regNumber_of_le (hnamed rfl)
    subst hop hr himm hq
    exact ⟨rfl, _, decodeR_packWord op' q mk⟩
  | regReg mk =>
    obtain ⟨⟨hop, -, -, himm⟩, hnamedL, hnamedR⟩ :=
      (fits_packWord_iff (mop := 0xFF) (ml := 0) (mr := 0) (mimm := 0xFFFFFFFFFFFFFFFF) rfl rfl).1 h
    rw [and_ones8] at hop
    rw [and_ones64] at himm
    obtain ⟨q, hq⟩ := eq_regNumber_of_le (hnamedL rfl)
    obtain ⟨q', hq'⟩ := eq_regNumber_of_le (hnamedR rfl)
    subst hop himm hq hq'
    exact ⟨rfl, _, decodeRR_packWord op' q q' mk⟩

/-- Settles O4: a word that decodes is the word of its instruction, which fits the table; a word that fits a row has the
row's opcode, whose format accepts it. -/
theorem decodableIffTableRow : Obligations.DecodableIffTableRow := by
  intro w
  constructor
  · rintro ⟨i, h⟩
    rw [← encodeOfDecode w i h]
    exact encodesWellFormed i
  · intro h
    obtain ⟨row, hrow, hfits⟩ := List.any_eq_true.1 h
    obtain ⟨f, hf, heq⟩ := opcodeTable_rows row hrow
    rw [heq] at hfits
    obtain ⟨hop, i, hi⟩ := Format.decodes_of_fits hfits
    rw [← hop] at hf
    exact ⟨i, (decode_of_opcodeMap hf).trans hi⟩

/-! ### The number of valid words -/

/-- The valid word of an instruction. -/
def validWordOf (i : Instr) : { w : InstrWord // ∃ i, decode w = .ok i } := ⟨encode i, i, decodeOfEncode i⟩

theorem validWordOf_bijective : Function.Bijective validWordOf := by
  constructor
  · intro i j h
    have hword : encode i = encode j := congrArg Subtype.val h
    exact Except.ok.inj ((decodeOfEncode i).symm.trans ((congrArg decode hword).trans (decodeOfEncode j)))
  · rintro ⟨w, i, h⟩
    exact ⟨i, Subtype.ext (encodeOfDecode w i h)⟩

/-- The operands of the instructions by their format: 2 of N, 4 of I, 4 of R and 12 of RR (R46, R49). -/
abbrev Shape := Fin 2 ⊕ (Fin 4 × Word) ⊕ (Fin 4 × Reg) ⊕ (Fin 12 × Reg × Reg)

/-- The instruction of a shape. -/
def ofShape : Shape → Instr
  | .inl k => ![.ret, .halt] k
  | .inr (.inl (k, x)) => ![Instr.pushI, .jmp, .jmpRel, .call] k x
  | .inr (.inr (.inl (k, r))) => ![Instr.pushR, .pop, .inp, .print] k r
  | .inr (.inr (.inr (k, l, r))) =>
    ![Instr.add, .sub, .mul, .div, .xor, .and, .or, .shl, .shr, .eq, .gt, .lt] k l r

/-- The shape of an instruction. -/
def shapeOf : Instr → Shape
  | .ret => .inl 0
  | .halt => .inl 1
  | .pushI x => .inr (.inl (0, x))
  | .jmp x => .inr (.inl (1, x))
  | .jmpRel x => .inr (.inl (2, x))
  | .call x => .inr (.inl (3, x))
  | .pushR r => .inr (.inr (.inl (0, r)))
  | .pop r => .inr (.inr (.inl (1, r)))
  | .inp r => .inr (.inr (.inl (2, r)))
  | .print r => .inr (.inr (.inl (3, r)))
  | .add l r => .inr (.inr (.inr (0, l, r)))
  | .sub l r => .inr (.inr (.inr (1, l, r)))
  | .mul l r => .inr (.inr (.inr (2, l, r)))
  | .div l r => .inr (.inr (.inr (3, l, r)))
  | .xor l r => .inr (.inr (.inr (4, l, r)))
  | .and l r => .inr (.inr (.inr (5, l, r)))
  | .or l r => .inr (.inr (.inr (6, l, r)))
  | .shl l r => .inr (.inr (.inr (7, l, r)))
  | .shr l r => .inr (.inr (.inr (8, l, r)))
  | .eq l r => .inr (.inr (.inr (9, l, r)))
  | .gt l r => .inr (.inr (.inr (10, l, r)))
  | .lt l r => .inr (.inr (.inr (11, l, r)))

/-- The instructions are their shapes. -/
def shapeEquiv : Instr ≃ Shape where
  toFun := shapeOf
  invFun := ofShape
  left_inv i := by cases i <;> rfl
  right_inv p := by
    rcases p with k | ⟨k, x⟩ | ⟨k, r⟩ | ⟨k, l, r⟩ <;> fin_cases k <;> rfl

/-- The registers by their numbers (R10). -/
def regEquiv : Reg ≃ Fin 6 where
  toFun
    | .a => 0
    | .b => 1
    | .c => 2
    | .d => 3
    | .ip => 4
    | .sp => 5
  invFun := ![.a, .b, .c, .d, .ip, .sp]
  left_inv r := by cases r <;> rfl
  right_inv k := by fin_cases k <;> rfl

theorem card_instr : Nat.card Instr = 2 + 4 * 2 ^ 64 + 4 * 6 + 12 * 36 := by
  have hreg : Nat.card Reg = 6 := by simpa using Nat.card_congr regEquiv
  have hword : Nat.card Word = 2 ^ 64 := by
    simpa using Nat.card_congr (BitVec.equivFin (m := 64)).toEquiv
  have : Finite Reg := Finite.of_equiv _ regEquiv.symm
  have : Finite Word := Finite.of_equiv _ (BitVec.equivFin (m := 64)).toEquiv.symm
  rw [Nat.card_congr shapeEquiv]
  simp only [Shape, Nat.card_sum, Nat.card_prod, Nat.card_fin, hreg, hword]
  omega

/-- Settles O5: the valid words are as many as the instructions, counted by format. -/
theorem validWordCount : Obligations.ValidWordCount :=
  (Nat.card_eq_of_bijective validWordOf validWordOf_bijective).symm.trans card_instr

theorem not_decode_of_not_wellFormed {w : InstrWord} (hw : wellFormedWord w = false) (i : Instr) : decode w ≠ .ok i :=
  fun hi => by simp [(decodableIffTableRow w).1 ⟨i, hi⟩] at hw

/-- Settles O1: ten words of the spec decode as they stand, and three fit no row of the table. -/
theorem specWordsDecode : Obligations.SpecWordsDecode :=
  ⟨rfl, rfl, rfl, rfl, rfl, rfl, rfl, rfl, rfl, rfl, not_decode_of_not_wellFormed (by decide),
    not_decode_of_not_wellFormed (by decide), not_decode_of_not_wellFormed (by decide)⟩

end Sys2Proof.Machine
end

section
/-!
More of the stack (41_stack.md). `poppedInto` is the state a completed `Pop` leaves; with `pushedAt`, what a push and a pop
after it do is read off the two states. That the stack storage has one form for its slots is an induction of its own.
-/
namespace Sys2Proof.Machine

/-- Settles O7: the two sides of the push's check, with the operand's value as the word. -/
theorem pushRegister : Obligations.PushRegister := by
  intro r s
  refine ⟨decode_packWord_pushR r, fun hroom => ?room, fun hfull => ?full⟩
  case room => exact ⟨_, conclude_push_of_room (s.getReg r) hroom, pushResult_pushedAt (s.getReg r) (s.ip + 1) s⟩
  case full => exact ⟨_, conclude_push_of_full (s.getReg r) hfull, faultTaken_raise .stackFault s⟩

/-! ### `Pop` -/

/-- The state after a `Pop` into `r`: SP one less, then the top word in `r`, then the increment (R71, R74). -/
def poppedInto (r : Reg) (s : State) : State :=
  increment false (State.setReg { s with sp := s.sp - 1 } r (topWord s))

theorem exec_pop (r : Reg) (s : State) : exec (.pop r) s = conclude s ((pop s).map fun p => p.2.setReg r p.1) := rfl

theorem exec_pop_of_words (r : Reg) {s : State} (hlow : 1 ≤ s.sp.toNat) (hhigh : s.sp.toNat ≤ 255) :
    exec (.pop r) s = .next (poppedInto r s) := by
  rw [exec_pop, (pop_ok_iff s _ _).2 ⟨⟨hlow, hhigh⟩, rfl, rfl⟩]
  rfl

theorem exec_pop_of_no_word (r : Reg) {s : State} (h : s.sp.toNat = 0 ∨ 255 < s.sp.toNat) :
    exec (.pop r) s = .next (raise .stackFault s) := by
  rw [exec_pop, (pop_error_iff s _).2 ⟨h, rfl⟩]
  rfl

theorem poppedInto_getReg_same {r : Reg} (hr : r ≠ .ip) (s : State) : (poppedInto r s).getReg r = topWord s := by
  rw [poppedInto, increment_getReg false _ r hr, getReg_setReg_same]

@[simp] theorem poppedInto_sp (r : Reg) (s : State) :
    (poppedInto r s).sp = if r = .sp then topWord s else s.sp - 1 := by
  simp [poppedInto]

@[simp] theorem poppedInto_ip (r : Reg) (s : State) :
    (poppedInto r s).ip = (if r = .ip then topWord s else s.ip) + 1 := by
  simp [poppedInto]

@[simp] theorem poppedInto_stack (r : Reg) (s : State) : (poppedInto r s).stack = s.stack := by simp [poppedInto]

theorem poppedInto_regsKept (r : Reg) (s : State) : RegsKept [r, .sp, .ip] s (poppedInto r s) := by
  intro q hq
  obtain ⟨hqr, hqsp, hqip⟩ : q ≠ r ∧ q ≠ .sp ∧ q ≠ .ip := by simpa using hq
  rw [poppedInto, increment_getReg false _ q hqip, getReg_setReg_other _ r q _ hqr]
  exact getReg_setReg_other s .sp q _ hqsp

theorem poppedInto_controlKept (r : Reg) (s : State) : ControlKept s (poppedInto r s) := by
  simp [ControlKept, poppedInto]

theorem poppedInto_envKept (r : Reg) (s : State) : EnvKept s (poppedInto r s) := by
  simp [EnvKept, poppedInto]

/-- Settles O8: the two sides of the pop's check. -/
theorem popRegister : Obligations.PopRegister := by
  intro r s
  refine ⟨decode_packWord_pop r, fun hlow hhigh => ?words, fun hnone => ?none⟩
  case words =>
    refine ⟨_, exec_pop_of_words r hlow hhigh, fun hr => poppedInto_getReg_same hr s, fun hr => ?_, poppedInto_ip r s,
      poppedInto_regsKept r s, fun i => by rw [poppedInto_stack], poppedInto_controlKept r s, poppedInto_envKept r s⟩
    rw [poppedInto_sp, if_neg hr, toNat_pred s.sp hlow]
  case none => exact ⟨_, exec_pop_of_no_word r hnone, faultTaken_raise .stackFault s⟩

/-! ### A push and then a pop (R75) -/

@[simp] theorem pushedAt_ip (v x : Word) (s : State) : (pushedAt v x s).ip = x := rfl
@[simp] theorem pushedAt_sp (v x : Word) (s : State) : (pushedAt v x s).sp = s.sp + 1 := rfl
@[simp] theorem pushedAt_stack (v x : Word) (s : State) :
    (pushedAt v x s).stack = s.stack.write s.sp.toNat v := rfl

theorem toNat_succ {x : Word} (h : x.toNat ≤ 254) : (x + 1).toNat = x.toNat + 1 := by
  rw [BitVec.toNat_add]
  change (x.toNat + 1) % 2 ^ 64 = x.toNat + 1
  omega

theorem topWord_pushedAt (v x : Word) {s : State} (h : s.sp.toNat ≤ 254) : topWord (pushedAt v x s) = v := by
  rw [topWord, pushedAt_sp, toNat_succ h, Nat.add_sub_cancel, pushedAt_stack, read_write_same]

theorem exec_pop_pushedAt (r : Reg) (v x : Word) {s : State} (h : s.sp.toNat ≤ 254) :
    exec (.pop r) (pushedAt v x s) = .next (poppedInto r (pushedAt v x s)) := by
  apply exec_pop_of_words <;> rw [pushedAt_sp, toNat_succ h] <;> omega

/-- Settles O9: the pop finds the pushed word on top, and takes SP back. -/
theorem pushImmediateThenPop : Obligations.PushImmediateThenPop := by
  intro v r s hsp
  have htop := topWord_pushedAt v (s.ip + 1) hsp
  refine ⟨_, _, (exec_pushI v s).trans (conclude_push_of_room v (Nat.lt_succ_of_le hsp)),
    exec_pop_pushedAt r v (s.ip + 1) hsp, fun hr => ?_, fun hr => ?_, fun hr => ?_, ?_⟩
  · rw [poppedInto_getReg_same hr, htop]
  · rw [poppedInto_sp, if_neg hr, pushedAt_sp, BitVec.add_sub_cancel]
  · rw [poppedInto_ip, if_pos hr, htop]
  · rw [StackStored, poppedInto_stack]
    exact (pushResult_pushedAt v (s.ip + 1) s).stored

/-- Settles O10: what the push changed besides its slot, SP, the pop takes back. -/
theorem pushRegisterThenPop : Obligations.PushRegisterThenPop := by
  intro r q s hsp hqip hqsp
  refine ⟨_, _, conclude_push_of_room (s.getReg r) (Nat.lt_succ_of_le hsp),
    exec_pop_pushedAt q (s.getReg r) (s.ip + 1) hsp, ?_, fun p hp => ?_, ?_⟩
  · rw [poppedInto_getReg_same hqip, topWord_pushedAt _ _ hsp]
  · obtain ⟨hpq, hpip⟩ : p ≠ q ∧ p ≠ .ip := by simpa using hp
    by_cases hpsp : p = .sp
    · subst hpsp
      rw [getReg_sp, poppedInto_sp, if_neg hqsp, pushedAt_sp, BitVec.add_sub_cancel, getReg_sp]
    · rw [poppedInto_regsKept q _ p (by simp [hpq, hpip, hpsp]), pushedAt_regsKept _ _ s p (by simp [hpip, hpsp])]
  · rw [poppedInto_ip, if_neg hqip, pushedAt_ip, BitVec.add_assoc]
    rfl

/-- Settles O11: the popped word is SP now, and the two checks of the next use are made on it. -/
theorem stackPointerCheckedAtNextUse : Obligations.StackPointerCheckedAtNextUse := by
  intro s hlow hhigh
  have hsp : (poppedInto .sp s).sp = topWord s := poppedInto_sp .sp s
  refine ⟨_, exec_pop_of_words .sp hlow hhigh, hsp, poppedInto_controlKept .sp s, fun hfull v => ?push,
    fun hnone r => ?pop⟩
  case push =>
    rw [← hsp] at hfull
    exact ⟨_, (exec_pushI v _).trans (conclude_push_of_full v hfull), faultTaken_raise .stackFault _⟩
  case pop =>
    rw [← hsp] at hnone
    exact ⟨_, exec_pop_of_no_word r hnone, faultTaken_raise .stackFault _⟩

/-! ### One form for the slots (log entry 7) -/

theorem wf_tail {c : Nat × Word} {m : Memory} (h : Memory.wf (c :: m)) : Memory.wf m :=
  ⟨(List.pairwise_cons.1 h.1).2, fun x hx => h.2 x (List.mem_cons_of_mem c hx)⟩

/-- In the canonical form no slot up to the first one listed is listed again. -/
theorem read_tail_of_le {c : Nat × Word} {m : Memory} (h : Memory.wf (c :: m)) {i : Nat} (hi : i ≤ c.1) :
    Memory.read m i = 0 :=
  read_of_not_listed m i fun x hx => by have := (List.pairwise_cons.1 h.1).1 x hx; omega

theorem read_head (c : Nat × Word) (m : Memory) : Memory.read (c :: m) c.1 = c.2 := by rw [read_cons, if_pos rfl]

theorem head_ne_zero {c : Nat × Word} {m : Memory} (h : Memory.wf (c :: m)) : c.2 ≠ 0 := by
  obtain ⟨hword, -⟩ := h.2 c (by simp)
  exact hword

/-- The first slot listed is the first that does not read 0, so it is decided by the reads. -/
theorem head_le_of_reads {c c' : Nat × Word} {m m' : Memory} (h : Memory.wf (c :: m)) (h' : Memory.wf (c' :: m'))
    (hread : ∀ i, Memory.read (c :: m) i = Memory.read (c' :: m') i) : c'.1 ≤ c.1 := by
  by_contra hlt
  have hzero : Memory.read (c' :: m') c.1 = 0 := by
    rw [read_cons, if_neg (by omega), read_tail_of_le h' (by omega)]
  rw [← hread, read_head] at hzero
  exact head_ne_zero h hzero

/-- Settles O12: by induction on both storages; the first slot that does not read 0 is the head of each. -/
theorem equalSlotsEqualStorage : Obligations.EqualSlotsEqualStorage := by
  intro m
  induction m with
  | nil =>
    intro m' _ h' hread
    cases m' with
    | nil => rfl
    | cons c' m' =>
      have hzero := hread c'.1
      rw [read_head, read_nil] at hzero
      exact absurd hzero.symm (head_ne_zero h')
  | cons c m ih =>
    intro m' h h' hread
    cases m' with
    | nil =>
      have hzero := hread c.1
      rw [read_head, read_nil] at hzero
      exact absurd hzero (head_ne_zero h)
    | cons c' m' =>
      have hslot : c.1 = c'.1 :=
        Nat.le_antisymm (head_le_of_reads h' h fun i => (hread i).symm) (head_le_of_reads h h' hread)
      have hword : c.2 = c'.2 := by
        have hhead := hread c.1
        rwa [read_head, hslot, read_head] at hhead
      have htail : ∀ i, Memory.read m i = Memory.read m' i := fun i => by
        by_cases hi : c.1 = i
        · rw [read_tail_of_le h hi.ge, read_tail_of_le h' (hslot ▸ hi.ge)]
        · have hlater := hread i
          rwa [read_cons, read_cons, if_neg hi, if_neg (hslot ▸ hi)] at hlater
      rw [Prod.ext hslot hword, ih m' (wf_tail h) (wf_tail h') htail]

end Sys2Proof.Machine
end

section
/-!
More of the arithmetic and bitwise instructions (42_alu.md) and of the comparisons (43_compare.md): the two value functions
that are left, the values for one register as both operands, and the trichotomy of the three relations.
-/
namespace Sys2Proof.Machine

/-! ### `Div` and `Shr` (R81, R86) -/

theorem aluDiv_of_ne_zero (x : Word) {y : Word} (h : y ≠ 0) : aluDiv x y = .ok (x / y) := if_neg h

theorem aluDiv_zero (x : Word) : aluDiv x 0 = .error .arithmeticFault := if_pos rfl

/-- The word quotient is the floor of the quotient of the numbers. -/
theorem floorQuotient (x : Word) {y : Word} (h : y ≠ 0) :
    (x / y).toNat * y.toNat ≤ x.toNat ∧ x.toNat < ((x / y).toNat + 1) * y.toNat := by
  rw [BitVec.toNat_udiv]
  exact ⟨Nat.div_mul_le_self x.toNat y.toNat,
    (Nat.div_lt_iff_lt_mul ((word_ne_zero_iff y).1 h)).1 (Nat.lt_succ_self _)⟩

theorem aluShr_of_lt (x : Word) {n : Word} (h : n.toNat < 64) : aluShr x n = .ok (x >>> n.toNat) :=
  if_neg (Nat.not_le.2 h)

theorem aluShr_of_ge (x : Word) {n : Word} (h : 64 ≤ n.toNat) : aluShr x n = .error .arithmeticFault := if_pos h

theorem toNat_shiftRight_eq_div (x : Word) (n : Nat) : (x >>> n).toNat = x.toNat / 2 ^ n := by
  rw [BitVec.toNat_ushiftRight, Nat.shiftRight_eq_div_pow]

/-- Settles O16: the two sides of the check on the divisor. -/
theorem divIsFloorQuotient : Obligations.DivIsFloorQuotient := by
  intro l r s
  refine ⟨binaryInstr_div.decode_packWord l r, fun hne => ?divides, fun hzero => ?faults⟩
  case divides =>
    obtain ⟨hle, hlt⟩ := floorQuotient (s.getReg l) hne
    exact ⟨_, _, binaryInstr_div.exec_of_value (aluDiv_of_ne_zero _ hne), hle, hlt, registerResult_setReg l _ s⟩
  case faults =>
    have hfault : aluDiv (s.getReg l) (s.getReg r) = .error .arithmeticFault := by rw [hzero, aluDiv_zero]
    exact binaryInstr_div.faults hfault

/-- Settles O21: the two sides of the check on the whole amount. -/
theorem shrDividesByPower : Obligations.ShrDividesByPower := by
  intro l r s
  refine ⟨binaryInstr_shr.decode_packWord l r, fun hlt => ?shifts, fun hge => ?faults⟩
  case shifts => exact binaryInstr_shr.completes (aluShr_of_lt _ hlt) (toNat_shiftRight_eq_div _ _)
  case faults => exact binaryInstr_shr.faults (aluShr_of_ge _ hge)

/-! ### One register as both operands (R89) -/

/-- The value `v` ends the step with `v` as the one result. -/
theorem BinaryInstr.answers {op : BitVec 8} {mk : Reg → Reg → Instr} {f : Word → Word → Except FaultKind Word}
    (h : BinaryInstr op mk f) {l r : Reg} {s : State} {v : Word} (hv : f (s.getReg l) (s.getReg r) = .ok v) :
    ∃ t, exec (mk l r) s = .next t ∧ RegisterResult l v s t :=
  ⟨_, h.exec_of_value hv, registerResult_setReg l v s⟩

theorem aluSub_self (x : Word) : aluSub x x = .ok 0 := by rw [aluSub, BitVec.sub_self]; rfl

theorem aluXor_self (x : Word) : aluXor x x = .ok 0 := by rw [aluXor, BitVec.xor_self]; rfl

theorem aluAnd_self (x : Word) : aluAnd x x = .ok x := by rw [aluAnd, BitVec.and_self]

theorem aluOr_self (x : Word) : aluOr x x = .ok x := by rw [aluOr, BitVec.or_self]

theorem aluDiv_self {x : Word} (h : x ≠ 0) : aluDiv x x = .ok 1 := by
  rw [aluDiv_of_ne_zero x h]
  congr 1
  apply BitVec.eq_of_toNat_eq
  rw [BitVec.toNat_udiv]
  exact Nat.div_self ((word_ne_zero_iff x).1 h)

/-- A word is smaller than its own power of 2, so the shift leaves nothing. -/
theorem aluShr_self {x : Word} (h : x.toNat < 64) : aluShr x x = .ok 0 := by
  rw [aluShr_of_lt x h]
  congr 1
  apply BitVec.eq_of_toNat_eq
  rw [toNat_shiftRight_eq_div]
  exact Nat.div_eq_of_lt Nat.lt_two_pow_self

/-- Settles O22, one value after the other. -/
theorem sameRegisterTwice : Obligations.SameRegisterTwice := by
  intro l s x
  refine ⟨binaryInstr_sub.answers (aluSub_self x), binaryInstr_xor.answers (aluXor_self x),
    binaryInstr_and.answers (aluAnd_self x), binaryInstr_or.answers (aluOr_self x), ?add, ?mul,
    fun hne => binaryInstr_div.answers (aluDiv_self hne), fun hzero => ?divZero, fun hge => ?far, fun hlt => ?near⟩
  case add => exact binaryInstr_add.completes (v := x + x) rfl (by rw [BitVec.toNat_add, Nat.two_mul])
  case mul => exact binaryInstr_mul.completes (v := x * x) rfl (by rw [BitVec.toNat_mul, Nat.pow_two])
  case divZero =>
    have hfault : aluDiv x x = .error .arithmeticFault := by rw [hzero, aluDiv_zero]
    exact binaryInstr_div.faults hfault
  case far =>
    obtain ⟨t, hshl, htaken⟩ := binaryInstr_shl.faults (s := s) (l := l) (aluShl_of_ge x hge)
    obtain ⟨u, hshr, hutaken⟩ := binaryInstr_shr.faults (s := s) (l := l) (aluShr_of_ge x hge)
    exact ⟨t, u, hshl, htaken, hshr, hutaken⟩
  case near =>
    exact ⟨binaryInstr_shr.answers (aluShr_self hlt),
      binaryInstr_shl.completes (aluShl_of_lt x hlt) (toNat_shiftLeft_eq_mul_mod x x.toNat)⟩

/-! ### The three comparisons of two operands -/

/-- Settles O26: of two numbers exactly one of equal, greater and less holds. -/
theorem exactlyOneComparisonHolds : Obligations.ExactlyOneComparisonHolds := by
  intro l r s
  obtain ⟨te, he, hte⟩ := compareInstr_eq.completes (l := l) (r := r) (s := s) (relEq_iff _ _)
  obtain ⟨tg, hg, htg⟩ := compareInstr_gt.completes (l := l) (r := r) (s := s) (relGt_iff _ _)
  obtain ⟨tl, hl, htl⟩ := compareInstr_lt.completes (l := l) (r := r) (s := s) (relLt_iff _ _)
  refine ⟨te, tg, tl, he, hg, hl, ?_⟩
  rw [hte.nextIp, htg.nextIp, htl.nextIp]
  rcases Nat.lt_trichotomy (s.getReg l).toNat (s.getReg r).toNat with hlt | heq | hgt
  · exact .inr (.inr (by simp [hlt, hlt.ne, hlt.le]))
  · exact .inl (by simp [heq])
  · exact .inr (.inl (by simp [hgt, hgt.ne', hgt.le]))

end Sys2Proof.Machine
end

section
/-!
The run loop (40_run_loop.md). What a step does is settled by the phase, then the fetch, then the decoder; each has one
lemma here. Runs of several steps go by `run_induction`, or are cut in two by `core_run_split`.
-/
namespace Sys2Proof.Machine

/-! ### One step -/

theorem step_of_not_running {s : State} (hp : s.phase ≠ .running) : step s = .next s := by
  rcases step_cases s with ⟨-, hs⟩ | ⟨hrun, -⟩ | ⟨hrun, -⟩
  · exact hs
  · exact absurd hrun hp
  · exact absurd hrun hp

/-- The two ways on from a fetch that finds the word `w`. -/
theorem step_of_fetched {s : State} {w : InstrWord} (hrun : s.phase = .running)
    (hw : s.prog[s.ip.toNat]? = some w) :
    (∃ e, decode w = .error e ∧ step s = .next (raise .illegalInstruction s)) ∨
      ∃ i, decode w = .ok i ∧ step s = exec i s := by
  rcases step_cases s with ⟨hp, -⟩ | ⟨-, hip, -⟩ | ⟨-, w', hw', hcases⟩
  · exact absurd hrun hp
  · rw [List.getElem?_eq_none hip] at hw
    cases hw
  · cases hw.symm.trans hw'
    exact hcases

/-- Settles O40: a word that decodes is not the decoder's fault. -/
theorem stepRunsTheDecodedInstruction : Obligations.StepRunsTheDecodedInstruction := by
  intro s w i hrun hw hd
  rcases step_of_fetched hrun hw with ⟨e, he, -⟩ | ⟨j, hj, hs⟩
  · cases hd.symm.trans he
  · cases hd.symm.trans hj
    exact hs

/-- Settles O41: the fetch's fault is raised with no other change. -/
theorem fetchOutOfRangeFaults : Obligations.FetchOutOfRangeFaults := fun s hrun hip =>
  ⟨_, step_of_ip_out_of_range hrun hip, faultTaken_raise .invalidAddress s⟩

/-- Settles O42: a word of no row is one the decoder refuses. -/
theorem invalidWordFaults : Obligations.InvalidWordFaults := by
  intro s w hrun hw hinvalid
  rcases step_of_fetched hrun hw with ⟨e, -, hs⟩ | ⟨i, hi, -⟩
  · exact ⟨_, hs, faultTaken_raise .illegalInstruction s⟩
  · exact absurd hi (not_decode_of_not_wellFormed hinvalid i)

/-- Settles O43: the first case of a step. -/
theorem noStepOutsideRunning : Obligations.NoStepOutsideRunning := fun _ => step_of_not_running

/-! ### Placing a word (log entry 2) -/

/-- All 80 bits of a word are table bits. -/
theorem tableWord_toNat (w : InstrWord) : tableWord 80 w.toNat = w := by
  rw [tableWord, Nat.mod_eq_of_lt w.isLt, BitVec.ofNat_toNat, BitVec.setWidth_eq]

/-- Settles O44: the next fetch reads the placed word, which decodes to its instruction. -/
theorem placedInstructionRuns : Obligations.PlacedInstructionRuns := by
  intro s i
  rw [State.withFetchWord, tableWord_toNat]
  exact ⟨_, rfl, stepRunsTheDecodedInstruction _ _ i (placeAtIp_phase _ s)
    ((fetch_ok_iff _ _).1 (fetch_placeAtIp _ s)) (decodeOfEncode i)⟩

/-! ### Runs that have ended (R68) -/

theorem run_eq_of_not_running {k : Nat} {s t : State} (hp : s.phase ≠ .running)
    (h : Sys2Proof.core.run k s = .next t) : t = s := by
  refine run_induction (fun s t => s.phase ≠ .running → t = s) (fun _ _ => rfl) (fun s u t hs ih hp => ?_) k s t h hp
  have hu : u = s := step_eq_of_not_running hp hs
  subst hu
  exact ih hp

/-- Settles O46: neither phase is Running, where a step is taken, or Ready, where `run` acts. -/
theorem endedRunsStayEnded : Obligations.EndedRunsStayEnded := by
  intro k s t hended
  have hready : s.phase ≠ .ready := by rcases hended with hp | hp <;> simp [hp]
  have hrunning : s.phase ≠ .running := by rcases hended with hp | hp <;> simp [hp]
  exact ⟨run_eq_of_not_running hrunning, hostRun_of_not_ready hready⟩

/-- A run of `k + j` steps passes through the state after `k`. -/
theorem core_run_split {k j : Nat} {s t : State} (h : Sys2Proof.core.run (k + j) s = .next t) :
    ∃ u, Sys2Proof.core.run k s = .next u ∧ Sys2Proof.core.run j u = .next t := by
  induction k generalizing s with
  | zero => exact ⟨s, rfl, by rwa [Nat.zero_add] at h⟩
  | succ k ih =>
    rw [Nat.add_right_comm] at h
    obtain ⟨v, hv, hrest⟩ := core_run_cases _ s t h
    obtain ⟨u, hu, hj⟩ := ih hrest
    exact ⟨u, (core_run_next k s v hv).trans hu, hj⟩

/-- Settles O47: a state that was faulted on the way would be the last one. -/
theorem safeRunsWereSafeBefore : Obligations.SafeRunsWereSafeBefore := by
  rintro k j s ⟨t, hrun, hsafe⟩
  obtain ⟨u, hk, hj⟩ := core_run_split hrun
  refine ⟨u, hk, fun hfaulted => hsafe ?_⟩
  rwa [run_eq_of_not_running (by simp [hfaulted]) hj]

/-! ### When a step has no next state (R107) -/

theorem exec_inp_of_noAnswer (r : Reg) {s : State} (h : inpSequence s.inputOpen s.input = .noAnswer) :
    exec (.inp r) s = .fault (.inputNotAnswered s.input.length) := by
  change execInp r s = _
  rw [execInp, h]

/-- An `Inp` on an open channel that has delivered only carriage returns is stuck, with all of them consumed. -/
theorem exec_inp_of_waiting (r : Reg) {s : State} {n : Nat} (hopen : s.inputOpen = true)
    (hinput : s.input = List.replicate n Config.cr) : exec (.inp r) s = .fault (.inputNotAnswered n) := by
  have hread : inpSequence s.inputOpen s.input = .noAnswer := by
    rw [hopen, hinput]
    exact inpSequence_of_only_cr true n
  rw [exec_inp_of_noAnswer r hread, hinput, List.length_replicate]

/-- Settles O48: every case of a step answers but an instruction's, and every instruction's but that of a waiting
`Inp`. -/
theorem stepAnswersUnlessInputIsAwaited : Obligations.StepAnswersUnlessInputIsAwaited := by
  intro s
  constructor
  · intro hnot
    rcases step_cases s with ⟨-, hs⟩ | ⟨-, -, hs⟩ | ⟨hrun, w, hw, ⟨e, -, hs⟩ | ⟨i, hi, hs⟩⟩
    · exact ⟨_, hs⟩
    · exact ⟨_, hs⟩
    · exact ⟨_, hs⟩
    · rcases exec_total i s with ⟨t, ht⟩ | ⟨⟨r, rfl⟩, hopen, hinput, -⟩
      · exact ⟨t, hs.trans ht⟩
      · have hcr : ∀ b ∈ s.input, b = 0x0D := fun b hb => by
          rw [hinput] at hb
          exact List.eq_of_mem_replicate hb
        exact absurd ⟨hrun, hopen, hcr, w, r, hw, hi⟩ hnot
  · rintro ⟨hrun, hopen, hcr, w, r, hw, hd⟩
    rw [stepRunsTheDecodedInstruction s w _ hrun hw hd]
    exact exec_inp_of_waiting r hopen (List.eq_replicate_of_mem hcr)

end Sys2Proof.Machine
end

section
/-!
More of the control transfers (44_control.md): the relative jump, a `Call` and its `Ret`, and the two loops of one
instruction.
-/
namespace Sys2Proof.Machine

/-! ### `JmpRel` (R96) -/

theorem exec_jmpRel (off : Word) (s : State) : exec (.jmpRel off) s = .next { s with ip := s.ip + off } :=
  congrArg Host.Outcome.next (increment_aimAt (s.ip + off) s)

/-- Adding `2^64 - k` goes back by `k`. -/
theorem toNat_add_of_back {x off : Word} {k : Nat} (hk : k ≤ x.toNat) (hoff : off.toNat = 2 ^ 64 - k) :
    (x + off).toNat = x.toNat - k := by
  have hx := x.isLt
  rw [BitVec.toNat_add, hoff]
  omega

/-- Settles O28: the aim and the increment cancel, so only IP moves. -/
theorem jmpRelAddsOffset : Obligations.JmpRelAddsOffset := fun off s =>
  have honly := onlyIp_setIp (s.ip + off) s
  ⟨decode_packWord_jmpRel off, _, exec_jmpRel off s, honly, badTargetFoundAtFetch_of_kept honly.control honly.env,
    fun _ _ hk hoff => toNat_add_of_back hk hoff⟩

theorem exec_jmpRel_zero (s : State) : exec (.jmpRel 0) s = .next s := by
  rw [exec_jmpRel, show s.ip + 0 = s.ip from BitVec.add_zero s.ip]

/-- Settles O29: a step that answers the same state does so any number of times. -/
theorem jmpRelZeroNeverEnds : Obligations.JmpRelZeroNeverEnds := by
  intro s k hrun hw
  have hstep : step s = .next s :=
    (stepRunsTheDecodedInstruction s _ _ hrun hw (decode_packWord_jmpRel 0)).trans (exec_jmpRel_zero s)
  induction k with
  | zero => rfl
  | succ k ih => rw [core_run_next k s s hstep, ih]

/-! ### `Call` and `Ret` (R97, R98) -/

/-- Settles O34: the word in the slot below SP is the return address, whatever else the state is. -/
theorem callThenRetReturns : Obligations.CallThenRetReturns := by
  intro addr s u hsp
  refine ⟨_, exec_call_of_room addr (Nat.lt_succ_of_le hsp), fun husp huslot => ?_⟩
  have hcount : u.sp.toNat = s.sp.toNat + 1 := by rw [husp, pushedAt_sp, toNat_succ hsp]
  refine ⟨returned u, exec_ret_of_words (by omega) (by omega), ?_, ?_⟩
  · change topWord u = _
    rw [topWord, hcount, Nat.add_sub_cancel, huslot, pushedAt_stack, read_write_same]
  · change u.sp - 1 = _
    rw [husp, pushedAt_sp, BitVec.add_sub_cancel]

/-! ### A `Call` of its own address -/

/-- What `k` executions of the `Call` at `s.ip` of `s.ip` itself have made of `s`. -/
structure Recursed (s : State) (k : Nat) (t : State) : Prop where
  running : t.phase = .running
  prog : t.prog = s.prog
  ip : t.ip = s.ip
  sp : t.sp.toNat = k
  slots : ∀ j, t.stack.read j = if j < k then s.ip + 1 else s.stack.read j

section Recursion

variable {s t : State} {k : Nat}

theorem Recursed.step_eq (h : Recursed s k t) (hw : s.prog[s.ip.toNat]? = some (encode (.call s.ip))) :
    step t = exec (.call s.ip) t :=
  stepRunsTheDecodedInstruction t _ _ h.running (by rw [h.prog, h.ip]; exact hw) (decodeOfEncode _)

/-- With a free slot the next execution stores the return address in slot `k`. -/
theorem Recursed.next (h : Recursed s k t) (hk : k < 255) : Recursed s (k + 1) (pushedAt (t.ip + 1) s.ip t) where
  running := phase_running_of_controlKept h.running (pushResult_pushedAt _ _ t).control
  prog := h.prog
  ip := rfl
  sp := by rw [pushedAt_sp, toNat_succ (by rw [h.sp]; omega), h.sp]
  slots j := by
    rw [pushedAt_stack, read_write, h.sp, h.slots, h.ip]
    grind

/-- As long as there are free slots, the run goes on as `Recursed` says. -/
theorem recursed_run (hrun : s.phase = .running) (hsp : s.sp = 0)
    (hw : s.prog[s.ip.toNat]? = some (encode (.call s.ip))) (hk : k ≤ 255) :
    ∃ t : State, Sys2Proof.core.run k s = .next t ∧ Recursed s k t := by
  induction k with
  | zero => exact ⟨s, rfl, hrun, rfl, rfl, by rw [hsp]; rfl, fun j => by simp⟩
  | succ k ih =>
    obtain ⟨t, ht, hrec⟩ := ih (Nat.le_of_succ_le hk)
    have hstep : step t = .next (pushedAt (t.ip + 1) s.ip t) := by
      rw [hrec.step_eq hw, exec_call_of_room _ (by rw [hrec.sp]; exact hk)]
    exact ⟨_, (core_run_add k 1 s t ht).trans (core_run_next 0 t _ hstep), hrec.next hk⟩

end Recursion

/-- Settles O31: `Recursed` up to 255 executions, and then the push finds the stack full. -/
theorem endlessRecursionFillsTheStack : Obligations.EndlessRecursionFillsTheStack := by
  intro s hrun hsp hw
  constructor
  · intro k hk
    obtain ⟨t, ht, hrec⟩ := recursed_run hrun hsp hw hk
    exact ⟨t, ht, hrec.running, hrec.ip, hrec.sp, hrec.slots⟩
  · obtain ⟨t, ht, hrec⟩ := recursed_run hrun hsp hw (Nat.le_refl 255)
    have hstep : step t = .next (raise .stackFault t) := by
      rw [hrec.step_eq hw, exec_call_of_full _ hrec.sp.ge]
    exact ⟨t, _, ht, (core_run_add 255 1 s t ht).trans (core_run_next 0 t _ hstep), faultTaken_raise .stackFault t⟩

end Sys2Proof.Machine
end

section
/-!
Faults (60_exceptions.md) and the invariant of Safety.lean. The three ways an instruction can raise a fault are
`exec_faulted_cases`; which kind an instruction has is then a matter of the instruction alone.
-/
namespace Sys2Proof.Machine

/-! ### The faults of an instruction (R123) -/

/-- The next states with a fault, of an instruction that began without one. -/
theorem exec_faulted_cases {i : Instr} {s t : State} (hnone : s.fault = 0) (h : exec i s = .next t)
    (hfault : t.fault ≠ 0) :
    (usesStack i ∧ t = raise .stackFault s) ∨ (mayFaultArithmetic i ∧ t = raise .arithmeticFault s) ∨
      ∃ r, i = .inp r ∧ t = raise .inputExhausted { s with input := [] } := by
  cases exec_cases i s t h with
  | stackFault hi => exact .inl ⟨hi, rfl⟩
  | arithmeticFault hi => exact .inr (.inl ⟨hi, rfl⟩)
  | inputExhausted r hi => exact .inr (.inr ⟨r, hi, rfl⟩)
  | register | pushed | popped | returned | moved | accepted | printed | halted =>
    exact absurd (by simpa using hnone) hfault

theorem faultCodeOf_of_usesStack {i : Instr} (h : usesStack i) : faultCodeOf i = some 2 := by
  rcases h with ⟨v, rfl⟩ | ⟨r, rfl⟩ | ⟨r, rfl⟩ | ⟨x, rfl⟩ | rfl <;> rfl

theorem faultCodeOf_of_mayFaultArithmetic {i : Instr} (h : mayFaultArithmetic i) : faultCodeOf i = some 3 := by
  rcases h with ⟨l, r, rfl⟩ | ⟨l, r, rfl⟩ | ⟨l, r, rfl⟩ <;> rfl

/-- Settles O50: the code of each way to fault is the one of the instructions that have it. -/
theorem faultKindsOfEachInstruction : Obligations.FaultKindsOfEachInstruction := by
  intro i s t hnone h hfault
  rcases exec_faulted_cases hnone h hfault with ⟨hi, rfl⟩ | ⟨hi, rfl⟩ | ⟨r, rfl, rfl⟩
  · exact faultCodeOf_of_usesStack hi
  · exact faultCodeOf_of_mayFaultArithmetic hi
  · rfl

/-! ### A step that faults -/

/-- Raising a fault after at most the input was consumed writes no other field (R115). -/
theorem exec_faulted_frame {i : Instr} {s t : State} (hnone : s.fault = 0) (h : exec i s = .next t)
    (hfault : t.fault ≠ 0) : t = { s with fault := t.fault, input := t.input } := by
  rcases exec_faulted_cases hnone h hfault with ⟨-, rfl⟩ | ⟨-, rfl⟩ | ⟨r, -, rfl⟩ <;> rfl

theorem not_usesStack_inp (r : Reg) : ¬ usesStack (.inp r) := by simp [usesStack]

theorem not_mayFaultArithmetic_inp (r : Reg) : ¬ mayFaultArithmetic (.inp r) := by simp [mayFaultArithmetic]

/-- A faulting `Inp` has consumed the input, and no other faulting instruction reads it (R108). -/
theorem exec_faulted_input {i : Instr} {s t : State} (hnone : s.fault = 0) (h : exec i s = .next t)
    (hfault : t.fault ≠ 0) :
    ((∃ r, i = .inp r) → t.input = []) ∧ ((∀ r, i ≠ .inp r) → t.input = s.input) := by
  rcases exec_faulted_cases hnone h hfault with ⟨hi, rfl⟩ | ⟨hi, rfl⟩ | ⟨r, rfl, rfl⟩
  · exact ⟨fun ⟨r, hr⟩ => absurd (hr ▸ hi) (not_usesStack_inp r), fun _ => rfl⟩
  · exact ⟨fun ⟨r, hr⟩ => absurd (hr ▸ hi) (not_mayFaultArithmetic_inp r), fun _ => rfl⟩
  · exact ⟨fun _ => rfl, fun hno => absurd rfl (hno r)⟩

theorem wellFormed_false_of_decode_error {w : InstrWord} {e : Reject} (h : decode w = .error e) :
    wellFormedWord w = false := by
  refine Bool.eq_false_iff.2 fun hw => ?_
  obtain ⟨i, hi⟩ := (decodableIffTableRow w).2 hw
  cases h.symm.trans hi

/-- The frame and the cause, by where the step faulted: at the fetch, at the decoder, or in the instruction. -/
theorem step_faulted {s t : State} (hrun : s.phase = .running) (h : step s = .next t) (hfault : t.fault ≠ 0) :
    t = { s with fault := t.fault, input := t.input } ∧ FaultOfCause s t := by
  obtain ⟨hnone, -, -⟩ := (phase_running_iff s).1 hrun
  rcases step_cases s with ⟨hp, -⟩ | ⟨-, hip, hs⟩ | ⟨-, w, hw, ⟨e, he, hs⟩ | ⟨i, hi, hs⟩⟩
  · exact absurd hrun hp
  · cases h.symm.trans hs
    exact ⟨rfl, .inl ⟨hip, rfl, rfl⟩⟩
  · cases h.symm.trans hs
    exact ⟨rfl, .inr ⟨w, hw, .inl ⟨wellFormed_false_of_decode_error he, rfl, rfl⟩⟩⟩
  · have hexec : exec i s = .next t := hs.symm.trans h
    exact ⟨exec_faulted_frame hnone hexec hfault, .inr ⟨w, hw, .inr ⟨i, hi,
      faultKindsOfEachInstruction i s t hnone hexec hfault, exec_faulted_input hnone hexec hfault⟩⟩⟩

/-- Settles O49: the frame and the cause of the fault, and then the phase Faulted, where no step is taken. -/
theorem faultWritesOnlyItsCode : Obligations.FaultWritesOnlyItsCode := by
  intro s t hrun h hfault
  obtain ⟨hframe, hcause⟩ := step_faulted hrun h hfault
  have hphase : t.phase = .faulted := (phase_faulted_iff t).2 hfault
  exact ⟨hframe, hcause, hphase, fun u => step_eq_of_not_running (by simp [hphase])⟩

/-! ### The invariant -/

/-- A push writes a slot below 255, and nothing else writes the stack storage (R31). -/
theorem exec_keeps_stackWf {i : Instr} {s t : State} (hwf : Memory.wf s.stack) (h : exec i s = .next t) :
    Memory.wf t.stack := by
  cases exec_cases i s t h with
  | pushed v x hsp => exact wf_write s.stack s.sp.toNat v hwf hsp
  | register | popped | returned | moved | accepted | printed | halted | stackFault | arithmeticFault
  | inputExhausted => simpa using hwf

theorem step_keeps_stackWf {s t : State} (hwf : Memory.wf s.stack) (h : step s = .next t) : Memory.wf t.stack := by
  by_cases hrun : s.phase = .running
  · rcases running_step_cases hrun h with ⟨k, rfl⟩ | ⟨i, hi⟩
    · exact hwf
    · exact exec_keeps_stackWf hwf hi
  · rwa [step_eq_of_not_running hrun h]

/-- The fault field is left alone or written with the code of a kind (R20). -/
theorem exec_fault_cases {i : Instr} {s t : State} (h : exec i s = .next t) :
    t.fault = s.fault ∨ ∃ k : FaultKind, t.fault = k.code := by
  cases exec_cases i s t h with
  | stackFault | arithmeticFault | inputExhausted => exact .inr ⟨_, raise_fault _ _⟩
  | register | pushed | popped | returned | moved | accepted | printed | halted => exact .inl (by simp)

theorem step_keeps_faultCode {s t : State} (hcode : s.fault.toNat ≤ 5) (h : step s = .next t) : t.fault.toNat ≤ 5 := by
  by_cases hrun : s.phase = .running
  · rcases running_step_cases hrun h with ⟨k, rfl⟩ | ⟨i, hi⟩
    · exact code_le_five k
    · rcases exec_fault_cases hi with hsame | ⟨k, hk⟩
      · rwa [hsame]
      · rw [hk]
        exact code_le_five k
  · rwa [step_eq_of_not_running hrun h]

/-- Settles O55, clause by clause: outside Running nothing changes, and a running machine has neither flag to lose. -/
theorem invariantKeptByEveryStep : Obligations.InvariantKeptByEveryStep := by
  intro s t hinv h
  by_cases hrun : s.phase = .running
  · obtain ⟨-, -, hstarted⟩ := (phase_running_iff s).1 hrun
    exact {
      stackWf := step_keeps_stackWf hinv.stackWf h
      faultCode := step_keeps_faultCode hinv.faultCode h
      haltNotFaulted := fun hhalt => by
        by_contra hfault
        simp [halt_false_of_step_faulted hrun h hfault] at hhalt
      endedWasStarted := fun _ => (step_keeps_started h).trans hstarted
      programFits := by rw [step_keeps_prog h]; exact hinv.programFits }
  · rwa [step_eq_of_not_running hrun h]

theorem inv_resetWith {prog : List InstrWord} (hprog : wellFormedProgram prog = true) (bytes : List Byte) (more : Bool) :
    Inv (State.resetWith prog bytes more) where
  stackWf := wf_nil
  faultCode := Nat.zero_le 5
  haltNotFaulted _ := rfl
  endedWasStarted h := by simp [State.resetWith] at h
  programFits := hprog

/-- The host's `run` at most sets `started`, which the invariant never asks to be 0. -/
theorem inv_hostRun {s : State} (h : Inv s) : Inv (hostRun s) := by
  rw [hostRun_eq]
  split
  · exact ⟨h.stackWf, h.faultCode, h.haltNotFaulted, fun _ => rfl, h.programFits⟩
  · exact h

/-- Settles O54: the constructed machine has the invariant, whatever the channel, and `run` keeps it. -/
theorem invariantAfterReset : Obligations.InvariantAfterReset := by
  refine ⟨inv_resetWith (by decide) [] false, fun prog s t hprog hreset => ?_⟩
  obtain ⟨-, rfl⟩ := (hostReset_eq_some_iff prog s t).1 hreset
  have hinv := inv_resetWith hprog s.input s.inputOpen
  exact ⟨hinv, inv_hostRun hinv⟩

end Sys2Proof.Machine
end

section
/-!
The two ports over a run (20_memory.md section 6; 10_state.md section 7), and the waiting `Inp` (45_io.md section 1).
-/
namespace Sys2Proof.Machine

/-! ### The order of input and output -/

/-- From `s` to `t`, input was consumed from the front only and output appended only. -/
def PortsAdvance (s t : State) : Prop :=
  (∃ consumed, s.input = consumed ++ t.input) ∧ ∃ written, t.output = s.output ++ written

theorem portsAdvance_of_kept {s t : State} (hin : t.input = s.input) (hout : t.output = s.output) :
    PortsAdvance s t :=
  ⟨⟨[], hin.symm⟩, [], by rw [hout, List.append_nil]⟩

theorem PortsAdvance.trans {s u t : State} (h : PortsAdvance s u) (h' : PortsAdvance u t) : PortsAdvance s t := by
  obtain ⟨⟨c, hc⟩, w, hw⟩ := h
  obtain ⟨⟨c', hc'⟩, w', hw'⟩ := h'
  exact ⟨⟨c ++ c', by rw [hc, hc', List.append_assoc]⟩, w ++ w', by rw [hw', hw, List.append_assoc]⟩

/-- What an instruction does to the ports, and which may. -/
theorem exec_ports {i : Instr} {s t : State} (h : exec i s = .next t) :
    PortsAdvance s t ∧ (t.input ≠ s.input → ∃ r, i = .inp r) ∧ (t.output ≠ s.output → ∃ r, i = .print r) := by
  cases exec_cases i s t h with
  | accepted r n b left hi hs hb =>
    exact ⟨⟨⟨List.replicate n Config.cr ++ [b], by simp [hs]⟩, [], by simp⟩, fun _ => ⟨r, hi⟩, fun hne => by simp at hne⟩
  | inputExhausted r hi =>
    exact ⟨⟨⟨s.input, by simp⟩, [], by simp⟩, fun _ => ⟨r, hi⟩, fun hne => by simp at hne⟩
  | printed r hi =>
    exact ⟨⟨⟨[], by simp⟩, [lowByte (s.getReg r)], by simp⟩, fun hne => by simp at hne, fun _ => ⟨r, hi⟩⟩
  | register | pushed | popped | returned | moved | halted | stackFault | arithmeticFault =>
    exact ⟨portsAdvance_of_kept (by simp) (by simp), fun hne => by simp at hne, fun hne => by simp at hne⟩

theorem step_portsAdvance {s t : State} (h : step s = .next t) : PortsAdvance s t := by
  by_cases hrun : s.phase = .running
  · rcases running_step_cases hrun h with ⟨k, rfl⟩ | ⟨i, hi⟩
    · exact portsAdvance_of_kept rfl rfl
    · obtain ⟨hports, -⟩ := exec_ports hi
      exact hports
  · rw [step_eq_of_not_running hrun h]
    exact portsAdvance_of_kept rfl rfl

/-- Settles O38: the run by `run_induction`, from the step; the instructions by `exec_ports`. -/
theorem portsAreUsedInOrder : Obligations.PortsAreUsedInOrder := by
  refine ⟨run_induction PortsAdvance (fun _ => portsAdvance_of_kept rfl rfl)
    (fun s u t hs ht => (step_portsAdvance hs).trans ht), fun i s t h => ?_⟩
  obtain ⟨-, hin, hout⟩ := exec_ports h
  exact ⟨hin, hout⟩

/-! ### Bytes that are not reached -/

/-- The state with more bytes behind those the channel has still to deliver. -/
def withLater (later : List Byte) (s : State) : State := { s with input := s.input ++ later }

section Later

variable (later : List Byte)

theorem withLater_getReg (s : State) (r : Reg) : (withLater later s).getReg r = s.getReg r := by cases r <;> rfl

theorem withLater_setReg (s : State) (r : Reg) (v : Word) :
    (withLater later s).setReg r v = withLater later (s.setReg r v) := by
  cases r <;> rfl

theorem push_withLater (v : Word) (s : State) : push v (withLater later s) = (push v s).map (withLater later) := by
  cases hp : push v s with
  | error k => exact (push_error_iff v (withLater later s) k).2 ((push_error_iff v s k).1 hp)
  | ok t =>
    obtain ⟨hsp, rfl⟩ := (push_ok_iff v s t).1 hp
    exact (push_ok_iff v (withLater later s) _).2 ⟨hsp, rfl⟩

theorem pop_withLater (s : State) :
    pop (withLater later s) = (pop s).map fun p => (p.1, withLater later p.2) := by
  cases hp : pop s with
  | error k => exact (pop_error_iff (withLater later s) k).2 ((pop_error_iff s k).1 hp)
  | ok p =>
    obtain ⟨hsp, hv, ht⟩ := (pop_ok_iff s p.2 p.1).1 hp
    exact (pop_ok_iff (withLater later s) _ _).2 ⟨hsp, hv, by rw [ht]; rfl⟩

theorem conclude_withLater (s : State) (e : Except FaultKind State) :
    conclude (withLater later s) (e.map (withLater later)) = mapNext (withLater later) (conclude s e) := by
  cases e <;> rfl

/-- An operation that does not see the later bytes, and a rest that does not either: nor does the whole step. -/
theorem conclude_map_withLater {α : Type} (s : State) {e e' : Except FaultKind α} (fα : α → α) (rest : α → State)
    (he : e' = e.map fα) (hrest : ∀ x, rest (fα x) = withLater later (rest x)) :
    conclude (withLater later s) (e'.map rest) = mapNext (withLater later) (conclude s (e.map rest)) := by
  rw [← conclude_withLater, he]
  cases e with
  | ok x => exact congrArg (fun t => conclude (withLater later s) (.ok t)) (hrest x)
  | error k => rfl

theorem binary_withLater (f : Word → Word → Except FaultKind Word) (l r : Reg) (s : State) :
    binary f l r (withLater later s) = mapNext (withLater later) (binary f l r s) := by
  rw [binary_eq, binary_eq, withLater_getReg, withLater_getReg]
  cases f (s.getReg l) (s.getReg r) with
  | ok v => exact congrArg (fun t => Host.Outcome.next (increment false t)) (withLater_setReg later s l v)
  | error k => rfl

theorem skipUnless_withLater (rel : Word → Word → Bool) (l r : Reg) (s : State) :
    skipUnless (rel ((withLater later s).getReg l) ((withLater later s).getReg r)) (withLater later s) =
      mapNext (withLater later) (skipUnless (rel (s.getReg l) (s.getReg r)) s) := by
  rw [withLater_getReg, withLater_getReg]
  rfl

/-- Where there is a byte to keep, the reads end with it, before any later byte. -/
theorem exec_inp_withLater (r : Reg) {s : State} {b : Byte} (hmem : b ∈ s.input) (hb : b ≠ Config.cr) :
    exec (.inp r) (withLater later s) = mapNext (withLater later) (exec (.inp r) s) := by
  rcases inpSequence_cases s.inputOpen s.input with ⟨n, hinput, -⟩ | ⟨n, c, left, hinput, hc, hread⟩
  · rw [hinput] at hmem
    exact absurd (List.eq_of_mem_replicate hmem) hb
  · have hread' : inpSequence (withLater later s).inputOpen (withLater later s).input = .byte c (left ++ later) := by
      change inpSequence s.inputOpen (s.input ++ later) = _
      rw [hinput, List.append_assoc]
      exact inpSequence_of_byte s.inputOpen n (left ++ later) hc
    rw [exec_inp_of_byte r hread, exec_inp_of_byte r hread']
    exact congrArg (fun t => Host.Outcome.next (increment false t))
      (withLater_setReg later { s with input := left } r (zext64 c))

theorem exec_withLater (i : Instr) {s : State} {b : Byte} (hmem : b ∈ s.input) (hb : b ≠ Config.cr) :
    exec i (withLater later s) = mapNext (withLater later) (exec i s) := by
  cases i with
  | pushI imm => exact (congrArg _ (push_withLater later imm s)).trans (conclude_withLater later s _)
  | pushR r =>
    change conclude _ (push ((withLater later s).getReg r) _) = _
    rw [withLater_getReg, push_withLater, conclude_withLater]
    rfl
  | pop r => exact conclude_map_withLater later s _ _ (pop_withLater later s) fun p => withLater_setReg later p.2 r p.1
  | add l r => exact binary_withLater later aluAdd l r s
  | sub l r => exact binary_withLater later aluSub l r s
  | mul l r => exact binary_withLater later aluMul l r s
  | div l r => exact binary_withLater later aluDiv l r s
  | xor l r => exact binary_withLater later aluXor l r s
  | and l r => exact binary_withLater later aluAnd l r s
  | or l r => exact binary_withLater later aluOr l r s
  | shl l r => exact binary_withLater later aluShl l r s
  | shr l r => exact binary_withLater later aluShr l r s
  | inp r => exact exec_inp_withLater later r hmem hb
  | eq l r => exact skipUnless_withLater later relEq l r s
  | gt l r => exact skipUnless_withLater later relGt l r s
  | lt l r => exact skipUnless_withLater later relLt l r s
  | jmp addr => rfl
  | jmpRel off => rfl
  | call addr => exact conclude_map_withLater later s _ _ (push_withLater later (s.ip + 1) s) fun _ => rfl
  | ret => exact conclude_map_withLater later s _ _ (pop_withLater later s) fun _ => rfl
  | print r =>
    rw [exec_print, exec_print, withLater_getReg]
    rfl
  | halt => rfl

end Later

/-- Settles O39: the phase, the fetch and the decoder do not see the input, and the instruction does not reach the later
bytes. -/
theorem unreadInputHasNoInfluence : Obligations.UnreadInputHasNoInfluence := by
  intro s b later hmem hb
  change step (withLater later s) = mapNext (withLater later) (step s)
  by_cases hrun : s.phase = .running
  · have hrun' : (withLater later s).phase = .running := hrun
    rcases step_cases s with ⟨hp, -⟩ | ⟨-, hip, hs⟩ | ⟨-, w, hw, ⟨e, he, hs⟩ | ⟨i, hi, hs⟩⟩
    · exact absurd hrun hp
    · rw [hs]
      exact step_of_ip_out_of_range hrun' hip
    · rw [hs]
      rcases step_of_fetched hrun' hw with ⟨-, -, hs'⟩ | ⟨i, hi, -⟩
      · exact hs'
      · cases he.symm.trans hi
    · rw [hs, stepRunsTheDecodedInstruction (withLater later s) w i hrun' hw hi]
      exact exec_withLater later i hmem hb
  · rw [step_of_not_running hrun]
    exact step_of_not_running (s := withLater later s) hrun

/-! ### Waiting -/

/-- Settles O36: the read transactions of the same stream, open, with a byte behind it, and ended. -/
theorem inpWaitsForTheChannel : Obligations.InpWaitsForTheChannel := by
  intro r n b left s hopen hinput
  refine ⟨exec_inp_of_waiting r hopen hinput, fun hb => ?delivered, ?ended⟩
  case delivered =>
    rw [channelDeliver_open _ s hopen]
    have hread : inpSequence s.inputOpen (s.input ++ b :: left) = .byte b left := by
      rw [hinput]
      exact inpSequence_of_byte s.inputOpen n left hb
    exact ⟨_, zext64 b, exec_inp_of_byte r hread, zext64_toNat b,
      registerResult_setReg r (zext64 b) { s with input := left }⟩
  case ended =>
    have hread : inpSequence (channelEnd s).inputOpen (channelEnd s).input = .exhausted := by
      change inpSequence false s.input = _
      rw [hinput]
      exact inpSequence_of_only_cr false n
    exact ⟨_, exec_inp_of_exhausted r hread, faultTaken_raise .inputExhausted _⟩

end Sys2Proof.Machine
end

section
/-!
More of the host's moves (10_state.md section 7; 70_reset_and_hazards.md sections 1 and 2).
-/
namespace Sys2Proof.Machine

/-- Settles O57: what the constructed machine is given of the channel is what the state had. -/
theorem resetLeavesTheChannel : Obligations.ResetLeavesTheChannel := by
  refine ⟨fun prog s t hreset => ?_, rfl, rfl, rfl, rfl⟩
  obtain ⟨-, rfl⟩ := (hostReset_eq_some_iff prog s t).1 hreset
  exact ⟨rfl, rfl, rfl⟩

/-- Settles O58: an answer of either of the two moves would say that the phase is another. -/
theorem runningMachineHasNoHostMove : Obligations.RunningMachineHasNoHostMove := by
  intro s hrun
  refine ⟨fun prog => Option.eq_none_iff_forall_ne_some.2 fun t hreset => ?_,
    Option.eq_none_iff_forall_ne_some.2 fun o hobs => ?_, hostRun_of_not_ready (by simp [hrun])⟩
  · obtain ⟨hp, -⟩ := (hostReset_eq_some_iff prog s t).1 hreset
    exact hp hrun
  · obtain ⟨hp, -⟩ := hostObserve_eq_some s o hobs
    exact hp hrun

/-- Settles O59: the two sides of `hostRun_eq`. -/
theorem runStartsOnlyFromReady : Obligations.RunStartsOnlyFromReady := fun _ =>
  ⟨fun hready => ⟨hostRun_of_ready hready, hostRun_phase_of_ready hready⟩, hostRun_of_not_ready⟩

/-- Settles O60: the machine that runs fetches at IP 0, which is the first word of the program. -/
theorem executionStartsAtAddressZero : Obligations.ExecutionStartsAtAddressZero := by
  intro w rest s t hreset
  obtain ⟨-, rfl⟩ := (hostReset_eq_some_iff (w :: rest) s t).1 hreset
  have hready := resetWith_phase (w :: rest) s.input s.inputOpen
  have hrun := hostRun_phase_of_ready hready
  rw [hostRun_of_ready hready] at hrun ⊢
  exact ⟨rfl, fun i => stepRunsTheDecodedInstruction _ w i hrun rfl, invalidWordFaults _ w hrun rfl⟩

end Sys2Proof.Machine
end
